-- ==== Sys2Proof/Word.lean ====
section
/-! DEFINITION. The two word types of the block: a buffer byte and a value operand. -/

namespace Sys2Proof

/-- One byte of the buffer (00_scope R5: `BYTEW` = 8). -/
abbrev Byte := BitVec 8

/-- A value operand or a decode result (00_scope R5: `VALW` = 64, 42_codec_laws R126: unsigned). -/
abbrev Value := BitVec 64

end Sys2Proof
end

