-- ==== Sys2Proof/Config.lean ====
section
/-! DEFINITION. The parameters of the block (00_scope R5) and the free values.

| Parameter | Where the model has it |
|---|---|
| `VALW` = 64, `BYTEW` = 8 | the widths of `Value` and `Byte` |
| `MAXBYTES` = 8, `MAXBITS` = 64 | the literals of the span test and of the width test (Machine/Operands.lean) |
| `CNTW` = 8, `BOFFW` = 3 | the types of `CmdPorts.count` and `CmdPorts.bitOffset` |
| `OFFW`, open | `BlockParams.offW`; what the two offset ports can carry is `portsFit` of Decode.lean, and the rules are over naturals (R5, D3); 32 in the packed descriptor (R66) |
| `BITNUM`, `HAS_STATUS` | `BlockParams` |
| `MEMLEN` | `Config`, which adds it to the block's parameters |
-/

namespace Sys2Proof

/-- 20_memory R35: which bit of a byte has `bit_index_within_byte` = 0. `lsb0`: index k is the bit of weight
2^k. `msb0`: index k is the bit of weight 2^(7−k). -/
inductive BitNum where
  | lsb0
  | msb0
deriving DecidableEq, Repr

/-- 10_state R15, R21: the parameters that are fixed when a block is built; no command changes them. -/
structure BlockParams where
  /-- `BITNUM`: R35, D1. -/
  bitNum    : BitNum
  /-- `OFFW`: the width of the `byte_offset` and `buffer_size` ports, any width of 1 or more (93 U16). -/
  offW      : Nat
  /-- `HAS_STATUS`: whether the optional status output exists (60_exceptions R154, D11). -/
  hasStatus : Bool
deriving DecidableEq, Repr

/-- 10_state R21: the parameters of a block and of the buffer memory attached to it. -/
structure Config extends BlockParams where
  /-- `MEMLEN`: how many bytes the attached buffer memory really has (00_scope R5, D13). -/
  memLen : Nat
deriving DecidableEq, Repr

/-- FREE VALUE (safe; log entry 5). What the result port shows when no decode completes: "unspecified for an
encode command and at all other times" (30_encoding R63, 93 U6). The argument is the state's `tick`. -/
opaque Config.freeRspValue : Nat → Value

/-- FREE VALUE (safe; log entry 5). What the status port shows when no command completes (10_state R22:
"Unspecified until the first command completes"; 30_encoding R63: valid when `rsp_valid = 1`). -/
opaque Config.freeRspStatus : Nat → BitVec 2

end Sys2Proof
end

