-- ==== Sys2Proof/Syntax.lean ====
section
/-! DEFINITION. The four commands (30_encoding R55) and the two forms a command comes in: the values on the
command ports (R63) and, through Decode.lean, the packed descriptor (R66). -/

namespace Sys2Proof

/-- 00_scope R8, 30_encoding R57: the endianness operand. `le` is LittleEndian, `be` is BigEndian. -/
inductive Endian where
  | le
  | be
deriving DecidableEq, Repr

/-- 30_encoding R55: one operation with a value for each of its operands, in the source's order with the
endianness first. `bufferSize`, `byteOffset` and the counts are naturals (00_scope R6, 30_encoding R56, R58);
`bitOffset` is 0 to 7 (R59, D4: a larger one cannot be presented). -/
inductive Instr where
  /-- ENCA, Encode aligned (40_aligned_byte_codec R82). -/
  | enca (e : Endian) (bufferSize byteOffset : Nat) (value : Value) (byteCount : Nat)
  /-- DECA, Decode aligned (40_aligned_byte_codec R85). -/
  | deca (e : Endian) (bufferSize byteOffset : Nat) (byteCount : Nat)
  /-- ENCB, Encode bits (41_bit_codec R104). -/
  | encb (e : Endian) (bufferSize byteOffset : Nat) (bitOffset : Fin 8) (value : Value) (bitCount : Nat)
  /-- DECB, Decode bits (41_bit_codec R108). -/
  | decb (e : Endian) (bufferSize byteOffset : Nat) (bitOffset : Fin 8) (bitCount : Nat)
deriving DecidableEq, Repr

/-- The operand `buffer_size` (30_encoding R56, 00_scope R9). -/
def Instr.bufferSize : Instr → Nat
  | .enca _ size _ _ _ => size
  | .deca _ size _ _ => size
  | .encb _ size _ _ _ _ => size
  | .decb _ size _ _ _ => size

/-- The operand `byte_offset` (30_encoding R56). -/
def Instr.byteOffset : Instr → Nat
  | .enca _ _ off _ _ => off
  | .deca _ _ off _ => off
  | .encb _ _ off _ _ _ => off
  | .decb _ _ off _ _ => off

/-- The operand `byte_count` or `bit_count` (30_encoding R58). -/
def Instr.count : Instr → Nat
  | .enca _ _ _ _ n => n
  | .deca _ _ _ n => n
  | .encb _ _ _ _ _ n => n
  | .decb _ _ _ _ n => n

/-- 30_encoding R63: the command ports as they are sampled at issue. The two offset ports are `OFFW` bits wide
with `OFFW` a parameter of the block, so they are naturals here and `portsFit` of Decode.lean says which values
an `OFFW`-bit port carries. -/
structure CmdPorts where
  fn         : BitVec 3
  bufferSize : Nat
  byteOffset : Nat
  bitOffset  : Fin 8
  count      : BitVec 8
  value      : Value
deriving DecidableEq, Repr

/-- 30_encoding R67, R68: why a 160-bit word spells no command. -/
inductive DecodeError where
  /-- CMD[7:6] or CMD[31:16] is not 0. -/
  | reservedBits
  /-- Format A and CMD[5:3] is not 0. -/
  | unusedBitOffset
  /-- A decode command and CMD[159:96] is not 0. -/
  | unusedValue
deriving DecidableEq, Repr

end Sys2Proof
end

