-- ==== Sys2Proof/WellFormed.lean ====
section
/-! DEFINITION. Which commands the packed descriptor can spell (30_encoding R66: `OFFW` = 32, `CNTW` = 8). A
command outside it is still a command of the block (R56: every value of the offsets is legal), and exec gives
it its meaning. -/

namespace Sys2Proof

/-- 30_encoding R66: `buffer_size` and `byte_offset` fit 32 bits and the count fits 8. The bit offset (3 bits)
and the value (64 bits) fit by their types. -/
def WellFormed (i : Instr) : Bool :=
  decide (i.bufferSize < 2 ^ 32) && decide (i.byteOffset < 2 ^ 32) && decide (i.count < 2 ^ 8)

end Sys2Proof
end

