-- ==== Sys2Proof/Decode.lean ====
section
/-! DEFINITION. From the command ports and from the packed descriptor to a command, and back (30_encoding R60,
R63, R66, R67, R68, R73). -/

namespace Sys2Proof

/-- 30_encoding R57: 0 is LittleEndian, 1 is BigEndian. -/
def endianOfBit (b : Bool) : Endian :=
  if b then .be else .le

/-- 30_encoding R57, R60: the bit `fn[0]` of an endianness. -/
def bitOfEndian : Endian → Bool
  | .le => false
  | .be => true

/-- 30_encoding R60, R65: `fn[2]` is the path, `fn[1]` the direction, `fn[0]` the endianness. Total, since the
ports have no reserved bits (R73); a field the command does not use is ignored (R63, R67). -/
def decodePorts (p : CmdPorts) : Instr :=
  match p.fn.getLsbD 2, p.fn.getLsbD 1 with
  | false, false => .enca (endianOfBit (p.fn.getLsbD 0)) p.bufferSize p.byteOffset p.value p.count.toNat
  | false, true  => .deca (endianOfBit (p.fn.getLsbD 0)) p.bufferSize p.byteOffset p.count.toNat
  | true,  false => .encb (endianOfBit (p.fn.getLsbD 0)) p.bufferSize p.byteOffset p.bitOffset p.value p.count.toNat
  | true,  true  => .decb (endianOfBit (p.fn.getLsbD 0)) p.bufferSize p.byteOffset p.bitOffset p.count.toNat

/-- 30_encoding R56, R63: the values of the two offset operands that ports of `offW` bits can carry. -/
def portsFit (offW : Nat) (p : CmdPorts) : Bool :=
  decide (p.bufferSize < 2 ^ offW) && decide (p.byteOffset < 2 ^ offW)

/-- 30_encoding R66: the fields of the descriptor, `CMD[hi:lo]` read as plain unsigned numbers (R62). -/
def descriptorPorts (w : BitVec 160) : CmdPorts where
  fn         := w.extractLsb' 0 3
  bitOffset  := (w.extractLsb' 3 3).toFin
  count      := w.extractLsb' 8 8
  byteOffset := (w.extractLsb' 32 32).toNat
  bufferSize := (w.extractLsb' 64 32).toNat
  value      := w.extractLsb' 96 64

/-- 30_encoding R68, R73: the total decoder of the packed descriptor. A word with a reserved bit set, or with an
unused field that is not 0, spells no command and is rejected by name. -/
def decode (w : BitVec 160) : Except DecodeError Instr :=
  if w.extractLsb' 6 2 ≠ 0 ∨ w.extractLsb' 16 16 ≠ 0 then .error .reservedBits
  else if (descriptorPorts w).fn.getLsbD 2 = false ∧ (descriptorPorts w).bitOffset ≠ 0 then .error .unusedBitOffset
  else if (descriptorPorts w).fn.getLsbD 1 = true ∧ (descriptorPorts w).value ≠ 0 then .error .unusedValue
  else .ok (decodePorts (descriptorPorts w))

/-- 30_encoding R60: `fn = {path, direction, e}`. -/
def functionCode (path direction : Bool) (e : Endian) : BitVec 3 :=
  BitVec.ofBool path ++ BitVec.ofBool direction ++ BitVec.ofBool (bitOfEndian e)

/-- 30_encoding R63, R67: the port values that present a command, an unused field being 0. -/
def encodePorts : Instr → CmdPorts
  | .enca e size off v n =>
    { fn := functionCode false false e, bufferSize := size, byteOffset := off, bitOffset := 0,
      count := BitVec.ofNat 8 n, value := v }
  | .deca e size off n =>
    { fn := functionCode false true e, bufferSize := size, byteOffset := off, bitOffset := 0,
      count := BitVec.ofNat 8 n, value := 0 }
  | .encb e size off bit v n =>
    { fn := functionCode true false e, bufferSize := size, byteOffset := off, bitOffset := bit,
      count := BitVec.ofNat 8 n, value := v }
  | .decb e size off bit n =>
    { fn := functionCode true true e, bufferSize := size, byteOffset := off, bitOffset := bit,
      count := BitVec.ofNat 8 n, value := 0 }

/-- 30_encoding R66: the fields laid out most significant first, the reserved ones 0. -/
def packDescriptor (p : CmdPorts) : BitVec 160 :=
  p.value ++ BitVec.ofNat 32 p.bufferSize ++ BitVec.ofNat 32 p.byteOffset ++ 0#16 ++ p.count ++ 0#2 ++
    BitVec.ofFin (w := 3) p.bitOffset ++ p.fn

/-- 30_encoding R66, R67: the one descriptor of a command that the descriptor can spell (WellFormed.lean). -/
def encode (i : Instr) : BitVec 160 :=
  packDescriptor (encodePorts i)

/-- The descriptor whose low `nbits` bits are `w`, every bit above them 0. The descriptor is a number and not a
byte string (30_encoding R66), so no byte order is involved. -/
def descriptorOfTableWord (nbits w : Nat) : BitVec 160 :=
  BitVec.ofNat 160 (w % 2 ^ nbits)

/-- The instruction the decoder reads from the table's word `w` of `nbits` bits. -/
def decodeTableWord (nbits w : Nat) : Option Instr :=
  match decode (descriptorOfTableWord nbits w) with
  | .ok i => some i
  | .error _ => none

end Sys2Proof
end

