-- ==== Sys2Proof/Machine/State.lean ====
section
/-! DEFINITION. The state of the machine as plain data. The block itself holds nothing but the buffer (10_state
R10, R18); the other fields are the parameters a step needs (R21), what the last step showed on the ports, and
the host's side of the interface (R20). -/

namespace Sys2Proof.Machine

/-- 10_state R10, 20_memory R30: the buffer memory `BUF` as a list of address and byte pairs, addresses strictly
rising, no entry equal to what an unlisted address reads as (Machine/Ops.lean: `Memory.read`, `Memory.write`,
`Memory.wf`). -/
abbrev Memory := List Host.Cell

/-- 60_exceptions R153: the condition class of a command. -/
inductive CondClass where
  | ok
  | outOfRange
  | widthTooLarge
deriving DecidableEq, Repr

/-- 10_state R14, R19: what a completing command delivers: the result of a decode (`none` for an encode, which
has "no return") and the condition class. -/
structure Response where
  result : Option Value
  status : CondClass
deriving DecidableEq, Repr

/-- 20_memory R38: one access on the buffer port, always of one byte: its index and the byte read or written
(30_encoding R63: `mem_we`, `mem_addr`, `mem_rdata`, `mem_wdata`). -/
inductive Access where
  | read  (addr : Nat) (data : Byte)
  | write (addr : Nat) (data : Byte)
deriving DecidableEq, Repr

/-- 70_reset_and_hazards R183: one move of the host, made when no command is in progress. -/
inductive HostMove where
  /-- Issue a command on the command ports (30_encoding R63). -/
  | command (p : CmdPorts)
  /-- Issue a command as a packed descriptor (30_encoding R66). -/
  | descriptor (w : BitVec 160)
  /-- Write one byte of the buffer between commands. -/
  | writeByte (addr : Nat) (data : Byte)
  /-- Reset when no command is in progress (70_reset_and_hazards R175, R176). -/
  | reset
deriving DecidableEq, Repr

/-- The machine's state. -/
structure State where
  /-- The parameters of 10_state R21; nothing changes them. -/
  cfg     : Config
  /-- The buffer, 10_state R10. -/
  buf     : Memory
  /-- The host's coming moves, oldest first (10_state R12, R20: which command comes next is the host's choice). -/
  host    : List HostMove
  /-- What the last step completed; `none` when it completed nothing, which is `rsp_valid` = 0 (30_encoding R63). -/
  rsp     : Option Response
  /-- The accesses of the last step on the buffer port, in order (20_memory R39, R40). -/
  bus     : List Access
  /-- The decode results the host has been given, in order (70_reset_and_hazards R188). -/
  results : List Value
  /-- The model's own step counter, the argument of the free values of Config.lean (log entry 5). -/
  tick    : Nat
deriving DecidableEq, Repr

/-- The block raises nothing: "the step function never returns a fault for a command" (60_exceptions R150, 93: "No
case has the treatment fault or stuck"). So there is no fault, and the type has no constructor. -/
inductive Fault
deriving DecidableEq, Repr

/-- Where the model gives no meaning (10_state R19: only at the boundary). Every one of them is safe. -/
inductive Refusal where
  /-- An instruction whose meaning is not written yet. No arm of exec raises it. Safe. -/
  | notModelled (mnemonic : String)
  /-- A command whose `buffer_size` is larger than `MEMLEN` (20_memory R31, 93 U5). Every meaning raises it. Safe. -/
  | bufferTooLarge
  /-- A command on the ports with a `buffer_size` or `byte_offset` that an `OFFW`-bit port cannot carry (00_scope R5,
  30_encoding R56, R63; log entry 6). The step raises it. Safe. -/
  | notPresentable
  /-- A packed descriptor that spells no command (30_encoding R68, 93 U9). The step raises it. Safe. -/
  | invalidDescriptor (why : DecodeError)
  /-- The host writes a byte index at or above `MEMLEN`, where there is no byte (10_state R10, log entry 8). The
  step raises it. Safe. -/
  | hostOutsideBuffer
  /-- Reset of an instance while its command is in progress, a move the model does not give the host
  (70_reset_and_hazards R176, 93 U8). Only an event of Machine/Agents.lean raises it: in the base model no
  command is in progress between steps. Safe. -/
  | resetDuringCommand
deriving DecidableEq, Repr

/-- The machine right after reset (70_reset_and_hazards R175, 10_state R22): idle, no response pending, no access
made. `BITNUM` has the spec's default (20_memory R35). DESIGN CHOICES, where the spec leaves a launch parameter
open: `MEMLEN` (log entry 2), the buffer's bytes (entry 3), `HAS_STATUS` (entry 4), `tick` (entry 5), `OFFW`
(entry 6), a host with no moves and no results (entry 7). -/
def State.reset : State where
  cfg     := { bitNum := .lsb0, offW := 32, hasStatus := true, memLen := 2 ^ 32 }
  buf     := []
  host    := []
  rsp     := none
  bus     := []
  results := []
  tick    := 0

end Sys2Proof.Machine
end

