-- ==== Sys2Proof/Machine/Ops.lean ====
section
/-! DEFINITION. The named operations over the buffer and over the state. -/

namespace Sys2Proof.Machine

/-- What a byte nobody has written reads as (DESIGN CHOICE, unsafe: log entry 3). 10_state R22: every byte of the
launch buffer is a definite number. -/
def unlistedByte : Byte := 0

/-- `BUF[a]` (00_scope R7: `MemRead(a, 1)`). -/
def Memory.read : Memory → Nat → Byte
  | [], _ => unlistedByte
  | c :: rest, a => if c.1 = a then c.2 else Memory.read rest a

/-- The memory without an entry for `a`. -/
def Memory.erase (m : Memory) (a : Nat) : Memory :=
  m.filter fun c => decide (c.1 ≠ a)

/-- The memory with an entry for `a` before the first entry of a higher address. -/
def Memory.insert : Memory → Nat → Byte → Memory
  | [], a, b => [(a, b)]
  | c :: rest, a, b => if a < c.1 then (a, b) :: c :: rest else c :: Memory.insert rest a b

/-- `BUF[a] <- b` (00_scope R7: `MemWrite(a, 1, b)`), keeping the canonical form. -/
def Memory.write (m : Memory) (a : Nat) (b : Byte) : Memory :=
  if b = unlistedByte then Memory.erase m a else Memory.insert (Memory.erase m a) a b

/-- Every listed address is at or above `lo`, addresses strictly rise, and no entry is the unlisted byte. -/
def Memory.wfFrom (lo : Nat) : Memory → Bool
  | [] => true
  | c :: rest => decide (lo ≤ c.1) && decide (c.2 ≠ unlistedByte) && Memory.wfFrom (c.1 + 1) rest

/-- The canonical form of a memory. -/
def Memory.wf (m : Memory) : Bool :=
  Memory.wfFrom 0 m

/-- Every listed address is below `n`. -/
def Memory.below (n : Nat) (m : Memory) : Bool :=
  m.all fun c => decide (c.1 < n)

/-- The memory that holds `bytes` from index `a` on: the host's launch buffer (10_state R20, R22). -/
def Memory.ofBytesFrom : Nat → List Byte → Memory
  | _, [] => []
  | a, b :: rest =>
    if b = unlistedByte then Memory.ofBytesFrom (a + 1) rest
    else (a, b) :: Memory.ofBytesFrom (a + 1) rest

/-- The first `n` bytes of a memory, index 0 first. -/
def Memory.bytes (m : Memory) (n : Nat) : List Byte :=
  (List.range n).map fun a => Memory.read m a

/-- `for i in [0, n)`, `i` ascending, the body taking the loop's state (00_scope R7, 20_memory R40). -/
def ascend {α : Type} : Nat → (Nat → α → α) → α → α
  | 0, _, x => x
  | n + 1, body, x => body n (ascend n body x)

/-- The byte index of an access. -/
def Access.addr : Access → Nat
  | .read a _ => a
  | .write a _ => a

/-- The access is a write (`mem_we`). -/
def Access.isWrite : Access → Bool
  | .read _ _ => false
  | .write _ _ => true

/-- `MemRead(a, 1)` on the buffer port (20_memory R38): the byte, and the state with the access recorded. A read
has no other effect (R42). -/
def State.memRead (s : State) (a : Nat) : Byte × State :=
  let b := Memory.read s.buf a
  (b, { s with bus := s.bus ++ [.read a b] })

/-- `MemWrite(a, 1, b)` on the buffer port (20_memory R38). -/
def State.memWrite (s : State) (a : Nat) (b : Byte) : State :=
  { s with buf := Memory.write s.buf a b, bus := s.bus ++ [.write a b] }

/-- 20_memory R31: a command runs only when its `buffer_size` is at most `MEMLEN`; otherwise the model refuses
it. `t` is the state the command completes in. -/
def State.requireBuffer (s : State) (bufferSize : Nat) (t : State) : Host.Outcome State Fault Refusal :=
  if bufferSize ≤ s.cfg.memLen then .next t else .refused .bufferTooLarge

/-- The completion of an encode: "buffer mutated; no return" (10_state R14). -/
def State.completeEncode (s : State) (status : CondClass) : State :=
  { s with rsp := some { result := none, status := status } }

/-- The completion of a decode: the 64-bit result is delivered to the host (10_state R14, 70_reset R188). -/
def State.completeDecode (s : State) (status : CondClass) (r : Value) : State :=
  { s with rsp := some { result := some r, status := status }, results := s.results ++ [r] }

/-- What every step does before the host's move takes effect: the move leaves the host's list, the response and
the accesses of the step before are gone (30_encoding R63: `rsp_valid` is 1 for one cycle), and the counter of
the free values advances. -/
def State.begin (s : State) (rest : List HostMove) : State :=
  { s with host := rest, rsp := none, bus := [], tick := s.tick + 1 }

end Sys2Proof.Machine
end

