-- ==== Sys2Proof/Machine/Operands.lean ====
section
/-! DEFINITION. Every operand form of the four commands: the tests on the operands, the positions, the selector,
the parts of a value, and the bits of a byte. All sums are over naturals and exact (42_codec_laws R125). -/

namespace Sys2Proof.Machine

/-- 40_aligned_byte_codec R80: the one span test of the aligned path. -/
def spanFail (bufferSize byteOffset n : Nat) : Bool :=
  decide (byteOffset + n > bufferSize) || decide (n > 8)

/-- 41_bit_codec R101: the width test of the bit path. -/
def widthFail (n : Nat) : Bool :=
  decide (n > 64)

/-- 20_memory R33: the one selector of both paths, `k(i)` of 40 R81 and `j(i)` of 41 R103. -/
def select (e : Endian) (n i : Nat) : Nat :=
  match e with
  | .le => i
  | .be => n - 1 - i

/-- 20_memory R32, 41_bit_codec R100: the absolute position of a bit field's first bit. -/
def startBit (byteOffset : Nat) (bitOffset : Fin 8) : Nat :=
  byteOffset * 8 + bitOffset.val

/-- 41_bit_codec R102: the byte an absolute position lies in. -/
def byteIndex (pos : Nat) : Nat :=
  pos / 8

/-- 41_bit_codec R100: the bit of that byte. -/
def bitIndex (pos : Nat) : Nat :=
  pos % 8

/-- 41_bit_codec R102: `m`, how many bits of the field are in range. -/
def inRangeBits (bufferSize start n : Nat) : Nat :=
  min n (8 * bufferSize - start)

/-- 00_scope R7: `value[8k+7 : 8k]`. -/
def valueByte (v : Value) (k : Nat) : Byte :=
  v.extractLsb' (8 * k) 8

/-- 00_scope R7: `value[j]`. -/
def valueBit (v : Value) (j : Nat) : Bool :=
  v.getLsbD j

/-- 00_scope R7, 20_memory R35: the byte with only the bit of index `k` set. -/
def bitmask (bn : BitNum) (k : Nat) : Byte :=
  match bn with
  | .lsb0 => BitVec.ofNat 8 (2 ^ k)
  | .msb0 => BitVec.ofNat 8 (2 ^ (7 - k))

/-- 00_scope R7: `getbit(b, k)`. -/
def getBit (bn : BitNum) (b : Byte) (k : Nat) : Bool :=
  decide (b &&& bitmask bn k ≠ 0)

/-- 00_scope R7: `setbit(b, k, x)`. -/
def setBit (bn : BitNum) (b : Byte) (k : Nat) (x : Bool) : Byte :=
  (b &&& ~~~ bitmask bn k) ||| (if x then bitmask bn k else 0)

/-- 20_memory R39: the byte footprint of a command, the byte indices it accesses on the buffer port (on the bit
path one entry per bit). -/
def footprint : Instr → List Nat
  | .enca _ size off _ n => if spanFail size off n then [] else (List.range n).map (off + ·)
  | .deca _ size off n => if spanFail size off n then [] else (List.range n).map (off + ·)
  | .encb _ size off bit _ n =>
    if widthFail n then []
    else ((List.range n).map fun i => byteIndex (startBit off bit + i)).filter (· < size)
  | .decb _ size off bit n =>
    if widthFail n then []
    else ((List.range n).map fun i => byteIndex (startBit off bit + i)).filter (· < size)

end Sys2Proof.Machine
end

