-- ==== Sys2Proof/Machine/Flags.lean ====
section
/-! DEFINITION. The block has no flags (10_state R13). What stands in their place is the condition class
(60_exceptions R153), a function of a command's operands alone, and its code on the optional status output
(R154). -/

namespace Sys2Proof.Machine

/-- 60_exceptions R153: the class of ENCA and DECA. `WIDTH_TOO_LARGE` comes first (R155). -/
def alignedClass (bufferSize byteOffset n : Nat) : CondClass :=
  if n > 8 then .widthTooLarge
  else if byteOffset + n > bufferSize then .outOfRange
  else .ok

/-- 60_exceptions R153: the class of ENCB and DECB. -/
def bitClass (bufferSize start n : Nat) : CondClass :=
  if n > 64 then .widthTooLarge
  else if n > 0 ∧ start + n > 8 * bufferSize then .outOfRange
  else .ok

/-- The command is an encode: it may write the buffer and has no result (30_encoding R55). -/
def isEncode : Instr → Bool
  | .enca .. => true
  | .encb .. => true
  | .deca .. => false
  | .decb .. => false

/-- 60_exceptions R153: the class of a command, from its operands alone. -/
def condClass : Instr → CondClass
  | .enca _ size off _ n => alignedClass size off n
  | .deca _ size off n => alignedClass size off n
  | .encb _ size off bit _ n => bitClass size (startBit off bit) n
  | .decb _ size off bit n => bitClass size (startBit off bit) n

/-- 60_exceptions R154: the code on `rsp_status`. -/
def statusCode : CondClass → BitVec 2
  | .ok => 0
  | .outOfRange => 1
  | .widthTooLarge => 2

end Sys2Proof.Machine
end

