-- ==== Sys2Proof/Machine/Aligned.lean ====
section
/-! DEFINITION. The Aligned Byte Codec: ENCA and DECA (40_aligned_byte_codec). -/

namespace Sys2Proof.Machine

/-- One turn of ENCA's loop: `MemWrite(byte_offset + i, 1, value[8k+7 : 8k])` (R82). -/
def encaByte (e : Endian) (off : Nat) (v : Value) (n i : Nat) (s : State) : State :=
  s.memWrite (off + i) (valueByte v (select e n i))

/-- One turn of DECA's loop: `r <- r + MemRead(byte_offset + i, 1) · 2^(8k)` (R85). -/
def decaByte (e : Endian) (off n i : Nat) (x : Nat × State) : Nat × State :=
  let b := x.2.memRead (off + i)
  (x.1 + b.1.toNat * 2 ^ (8 * select e n i), b.2)

/-- R80, R84: all or nothing, then the bytes in ascending order. -/
def encaBytes (e : Endian) (size off : Nat) (v : Value) (n : Nat) (s : State) : State :=
  if spanFail size off n then s else ascend n (encaByte e off v n) s

/-- R80, R86: 0 without an access when the span test fails, else the bytes in ascending order. -/
def decaBytes (e : Endian) (size off n : Nat) (s : State) : Nat × State :=
  if spanFail size off n then (0, s) else ascend n (decaByte e off n) (0, s)

/-- ENCA, Encode aligned (R82). -/
def execEnca (e : Endian) (size off : Nat) (v : Value) (n : Nat) (s : State) : Host.Outcome State Fault Refusal :=
  s.requireBuffer size ((encaBytes e size off v n s).completeEncode (alignedClass size off n))

/-- DECA, Decode aligned (R85). -/
def execDeca (e : Endian) (size off n : Nat) (s : State) : Host.Outcome State Fault Refusal :=
  let x := decaBytes e size off n s
  s.requireBuffer size (x.2.completeDecode (alignedClass size off n) (BitVec.ofNat 64 x.1))

end Sys2Proof.Machine
end

