-- ==== Sys2Proof/Machine/Bits.lean ====
section
/-! DEFINITION. The Bit Codec: ENCB and DECB (41_bit_codec). -/

namespace Sys2Proof.Machine

/-- One turn of ENCB's loop (R104): a bit whose byte is out of range is skipped; any other is written by a
read-modify-write of its byte that changes only that bit. -/
def encbBit (e : Endian) (size start : Nat) (v : Value) (n i : Nat) (s : State) : State :=
  let a := byteIndex (start + i)
  if a ≥ size then s
  else
    let b := s.memRead a
    b.2.memWrite a (setBit s.cfg.bitNum b.1 (bitIndex (start + i)) (valueBit v (select e n i)))

/-- One turn of DECB's loop (R108): `r <- r + x · 2^j`, an out-of-range bit reading as 0 without an access. -/
def decbBit (e : Endian) (size start n i : Nat) (x : Nat × State) : Nat × State :=
  let a := byteIndex (start + i)
  if a ≥ size then x
  else
    let b := x.2.memRead a
    (x.1 + (getBit x.2.cfg.bitNum b.1 (bitIndex (start + i))).toNat * 2 ^ select e n i, b.2)

/-- R101: no access when the width test fails, else the bits in ascending order. -/
def encbBits (e : Endian) (size start : Nat) (v : Value) (n : Nat) (s : State) : State :=
  if widthFail n then s else ascend n (encbBit e size start v n) s

/-- R101, R110: 0 without an access when the width test fails, else the bits in ascending order. -/
def decbBits (e : Endian) (size start n : Nat) (s : State) : Nat × State :=
  if widthFail n then (0, s) else ascend n (decbBit e size start n) (0, s)

/-- ENCB, Encode bits (R104). -/
def execEncb (e : Endian) (size off : Nat) (bit : Fin 8) (v : Value) (n : Nat) (s : State) :
    Host.Outcome State Fault Refusal :=
  s.requireBuffer size
    ((encbBits e size (startBit off bit) v n s).completeEncode (bitClass size (startBit off bit) n))

/-- DECB, Decode bits (R108). -/
def execDecb (e : Endian) (size off : Nat) (bit : Fin 8) (n : Nat) (s : State) :
    Host.Outcome State Fault Refusal :=
  let x := decbBits e size (startBit off bit) n s
  s.requireBuffer size (x.2.completeDecode (bitClass size (startBit off bit) n) (BitVec.ofNat 64 x.1))

end Sys2Proof.Machine
end

