-- ==== Sys2Proof/Machine/Dispatch.lean ====
section
/-! DEFINITION. One arm per constructor of Instr (30_encoding R55, R65), each a direct call of its meaning. -/

namespace Sys2Proof.Machine

def exec (i : Instr) (s : State) : Host.Outcome State Fault Refusal :=
  match i with
  | .enca e size off v n => Sys2Proof.Machine.execEnca e size off v n s
  | .deca e size off n => Sys2Proof.Machine.execDeca e size off n s
  | .encb e size off bit v n => Sys2Proof.Machine.execEncb e size off bit v n s
  | .decb e size off bit n => Sys2Proof.Machine.execDecb e size off bit n s

end Sys2Proof.Machine
end

