-- ==== Sys2Proof/Machine/HostMoves.lean ====
section
/-! DEFINITION. The host's moves (70_reset_and_hazards R183) and how a command reaches the block. -/

namespace Sys2Proof.Machine

/-- What the port values at issue present: always a command (30_encoding R73), when the ports can carry them. -/
def portsCommand (offW : Nat) (p : CmdPorts) : Except Refusal Instr :=
  if portsFit offW p then .ok (decodePorts p) else .error .notPresentable

/-- What a packed descriptor presents: the command it decodes to. One that spells no command is refused, not treated
as a no-op (30_encoding R68). -/
def descriptorCommand (w : BitVec 160) : Except Refusal Instr :=
  match decode w with
  | .ok i => .ok i
  | .error why => .error (.invalidDescriptor why)

/-- The command that the host presents runs. -/
def runPresented (c : Except Refusal Instr) (s : State) : Host.Outcome State Fault Refusal :=
  match c with
  | .ok i => exec i s
  | .error why => .refused why

/-- A command on the ports. -/
def issuePorts (p : CmdPorts) (s : State) : Host.Outcome State Fault Refusal :=
  runPresented (portsCommand s.cfg.offW p) s

/-- A command as a packed descriptor, whose offset fields are 32 bits wide under every `OFFW` (log entry 6). -/
def issueDescriptor (w : BitVec 160) (s : State) : Host.Outcome State Fault Refusal :=
  runPresented (descriptorCommand w) s

/-- Between commands the host may write any byte of the buffer (R183); the block's own port makes no access. -/
def hostWrite (a : Nat) (b : Byte) (s : State) : Host.Outcome State Fault Refusal :=
  if a < s.cfg.memLen then .next { s with buf := Memory.write s.buf a b } else .refused .hostOutsideBuffer

/-- Reset when no command is in progress (R175, R176): the block is idle afterwards, with no response pending; the
buffer and the parameters are untouched. The list of results is the host's and not the block's. -/
def applyReset (s : State) : Host.Outcome State Fault Refusal :=
  .next { s with rsp := none, bus := [] }

/-- One move of the host. -/
def hostMove (m : HostMove) (s : State) : Host.Outcome State Fault Refusal :=
  match m with
  | .command p => issuePorts p s
  | .descriptor w => issueDescriptor w s
  | .writeByte a b => hostWrite a b s
  | .reset => applyReset s

/-- Put a descriptor where the next step takes its command from: at the head of the host's moves. -/
def presentDescriptor (w : BitVec 160) (s : State) : State :=
  { s with host := .descriptor w :: s.host }

/-- Launch (R178, R183): a block is built with its parameters, the host hands over a buffer with its contents and will
make the given moves. -/
def launch (params : BlockParams) (bytes : List Byte) (moves : List HostMove) : State :=
  { State.reset with
    cfg := { toBlockParams := params, memLen := bytes.length },
    buf := Memory.ofBytesFrom 0 bytes, host := moves }

end Sys2Proof.Machine
end

