-- ==== Sys2Proof/Machine/Step.lean ====
section
/-! DEFINITION. One step: the host's next move, a command being one atomic step (20_memory R45). When the host
makes no move, the block idles (70_reset_and_hazards R188). -/

namespace Sys2Proof.Machine

def step (s : State) : Host.Outcome State Fault Refusal :=
  match s.host with
  | [] => .next (s.begin [])
  | m :: rest => hostMove m (s.begin rest)

/-- The state whose very next step runs the instruction of the table's word: its descriptor at the head of the
host's moves (log entry 9: how a command comes to run). -/
def State.withFetchWord (s : State) (nbits w : Nat) : State :=
  presentDescriptor (descriptorOfTableWord nbits w) s

end Sys2Proof.Machine
end

