-- ==== Sys2Proof/Machine/Ports.lean ====
section
/-! DEFINITION. The output ports of 30_encoding R63 as views of the state between steps. -/

namespace Sys2Proof.Machine

/-- `rsp_valid`: the last step completed a command. -/
def State.rspValid (s : State) : Bool :=
  s.rsp.isSome

/-- `rsp_value`: the result of a decode command that completes, "unspecified for an encode command and at all other
times" (free value, log entry 5). -/
def State.rspValue (s : State) : Value :=
  match s.rsp with
  | some { result := some v, .. } => v
  | _ => Config.freeRspValue s.tick

/-- `rsp_status`: exists only when `HAS_STATUS` = 1; the condition class of the completing command (60_exceptions
R154), unspecified when none completes (free value, log entry 5). -/
def State.rspStatus (s : State) : Option (BitVec 2) :=
  if s.cfg.hasStatus then
    match s.rsp with
    | some r => some (statusCode r.status)
    | none => some (Config.freeRspStatus s.tick)
  else none

/-- `cmd_ready`: between steps no command is in progress (20_memory R45), so the block can take one (30_encoding
R64, 70_reset_and_hazards R175). -/
def State.cmdReady (_ : State) : Bool := true

end Sys2Proof.Machine
end

