-- ==== Sys2Proof/Machine/Agents.lean ====
section
/-! DEFINITION. Several codec instances on one buffer (20_memory R45, R46; 60_exceptions R167): each byte access of
20_memory R39 is a separate event, the events of different instances interleave in any order, and each
instance's own events keep the order of R40. The order in which they come is an argument, so a statement
over every order admits every schedule. The base model (Step.lean) is one instance whose command is one step. -/

namespace Sys2Proof.Machine

/-- 10_state R18: what an instance holds while a command executes: the command's operands (sampled at issue,
30_encoding R64), the loop index, on the bit path the byte it has read and not yet written back, and the part
of a decode result gathered so far (DEDUCED: log entry 18). -/
structure InFlight where
  cmd  : Instr
  idx  : Nat
  held : Option Byte
  acc  : Nat
deriving DecidableEq, Repr

/-- A command as it is issued (30_encoding R64). -/
def InFlight.issue (i : Instr) : InFlight :=
  { cmd := i, idx := 0, held := none, acc := 0 }

/-- How many turns of its loop make an access (20_memory R39): all of them on the aligned path when the span test
passes, the `m` in-range ones on the bit path (41_bit_codec R102), none when the test on the operands fails. -/
def activeTurns : Instr → Nat
  | .enca _ size off _ n => if spanFail size off n then 0 else n
  | .deca _ size off n => if spanFail size off n then 0 else n
  | .encb _ size off bit _ n => if widthFail n then 0 else inRangeBits size (startBit off bit) n
  | .decb _ size off bit n => if widthFail n then 0 else inRangeBits size (startBit off bit) n

/-- How many byte accesses a command makes: two a bit for ENCB (20_memory R39), one a turn otherwise. -/
def accessCount : Instr → Nat
  | .enca e size off v n => activeTurns (.enca e size off v n)
  | .deca e size off n => activeTurns (.deca e size off n)
  | .encb e size off bit v n => 2 * activeTurns (.encb e size off bit v n)
  | .decb e size off bit n => activeTurns (.decb e size off bit n)

/-- Every access of the command has been made (20_memory R47). -/
def InFlight.done (f : InFlight) : Bool :=
  decide (activeTurns f.cmd ≤ f.idx)

/-- What a command delivers on completion: a 64-bit value for a decode, nothing for an encode (10_state R14), and its
condition class (60_exceptions R153). -/
def InFlight.response (f : InFlight) : Response where
  result := if isEncode f.cmd then none else some (BitVec.ofNat 64 f.acc)
  status := condClass f.cmd

/-- The next byte access of a command in progress (20_memory R39, R40, R41: one access, indivisible; ENCB's read
and its write are two accesses). A completed command makes none. -/
def InFlight.access (bn : BitNum) (f : InFlight) (m : Memory) : InFlight × Memory :=
  if f.done then (f, m)
  else
    match f.cmd with
    | .enca e _ off v n =>
      ({ f with idx := f.idx + 1 }, Memory.write m (off + f.idx) (valueByte v (select e n f.idx)))
    | .deca e _ off n =>
      let b := Memory.read m (off + f.idx)
      ({ f with idx := f.idx + 1, acc := f.acc + b.toNat * 2 ^ (8 * select e n f.idx) }, m)
    | .encb e _ off bit v n =>
      let pos := startBit off bit + f.idx
      match f.held with
      | none => ({ f with held := some (Memory.read m (byteIndex pos)) }, m)
      | some b =>
        ({ f with idx := f.idx + 1, held := none },
          Memory.write m (byteIndex pos) (setBit bn b (bitIndex pos) (valueBit v (select e n f.idx))))
    | .decb e _ off bit n =>
      let pos := startBit off bit + f.idx
      let x := getBit bn (Memory.read m (byteIndex pos)) (bitIndex pos)
      ({ f with idx := f.idx + 1, acc := f.acc + x.toNat * 2 ^ select e n f.idx }, m)

/-- 60_exceptions R167: one instance of the block: the parameters it was built with, and its own command and response
interface. DESIGN CHOICE (log entry 22): the spec does not say whether instances may differ in their
parameters, so each has its own. -/
structure Codec where
  /-- `BITNUM`, `OFFW` and `HAS_STATUS` of this instance (10_state R15, R21). -/
  params  : BlockParams
  /-- The command in progress; `none` when the instance is idle (10_state R22, 70_reset_and_hazards R175). -/
  command : Option InFlight
  /-- The completion its ports show, `none` for `rsp_valid` = 0 (30_encoding R63). It is gone at the instance's next
  event (log entry 13). -/
  rsp     : Option Response
  /-- The completions its host has been given, oldest first (70_reset_and_hazards R188). -/
  given   : List Response
deriving DecidableEq, Repr

/-- An instance right after reset: idle, no response pending (60_exceptions R167, 70_reset_and_hazards R175). -/
def Codec.reset (params : BlockParams) : Codec :=
  { params := params, command := none, rsp := none, given := [] }

/-- 30_encoding R64: `cmd_ready` is 0 from the issue of a command until it has completed. -/
def Codec.cmdReady (x : Codec) : Bool :=
  x.command.isNone

/-- `rsp_valid` of the instance. -/
def Codec.rspValid (x : Codec) : Bool :=
  x.rsp.isSome

/-- `rsp_value` of the instance when a decode completes. At any other time the port is unspecified and the view
gives no value (93 U6). -/
def Codec.rspValue (x : Codec) : Option Value :=
  x.rsp.bind (·.result)

/-- `rsp_status` of the instance when a command completes, if it has the port (60_exceptions R154). -/
def Codec.rspStatus (x : Codec) : Option (BitVec 2) :=
  if x.params.hasStatus then x.rsp.map fun r => statusCode r.status else none

/-- The instance takes a command. -/
def Codec.take (i : Instr) (x : Codec) : Codec :=
  { x with command := some (.issue i), rsp := none }

/-- The instance has made the last access of its command and completes it. -/
def Codec.complete (f : InFlight) (x : Codec) : Codec :=
  { x with command := none, rsp := some f.response, given := x.given ++ [f.response] }

/-- One turn of an instance: the next byte access of its command, and completion with the last one. A command that
makes no access completes in one turn; an idle instance idles. -/
def Codec.advance (x : Codec) (m : Memory) : Codec × Memory :=
  match x.command with
  | none => ({ x with rsp := none }, m)
  | some f =>
    let r := f.access x.params.bitNum m
    if r.1.done then (x.complete r.1, r.2) else ({ x with command := some r.1, rsp := none }, r.2)

/-- Several instances pointed at one buffer of `memLen` bytes; they share nothing else (60_exceptions R167). -/
structure Shared where
  memLen : Nat
  mem    : Memory
  codecs : List Codec
deriving DecidableEq, Repr

/-- Launch of several instances on the host's buffer: every one is ready, with no start-up protocol (R167). -/
def Shared.launch (bytes : List Byte) (params : List BlockParams) : Shared :=
  { memLen := bytes.length, mem := Memory.ofBytesFrom 0 bytes, codecs := params.map Codec.reset }

/-- One event of the interleaving. -/
inductive SharedEvent where
  /-- Instance `k` takes its next turn. -/
  | advance (k : Nat)
  /-- The host presents a command on the ports of instance `k`. -/
  | issue (k : Nat) (p : CmdPorts)
  /-- The host presents a packed descriptor to instance `k`. -/
  | issueDescriptor (k : Nat) (w : BitVec 160)
  /-- The host resets instance `k`. -/
  | reset (k : Nat)
  /-- The host writes a byte, whether or not a command is in progress (70_reset_and_hazards R180, R184). -/
  | hostWrite (addr : Nat) (data : Byte)
deriving DecidableEq, Repr

/-- The instance an event is about; a host write is about none. -/
def SharedEvent.target : SharedEvent → Option Nat
  | .advance k => some k
  | .issue k _ => some k
  | .issueDescriptor k _ => some k
  | .reset k => some k
  | .hostWrite _ _ => none

/-- Instance `k` becomes `x`. -/
def Shared.setCodec (k : Nat) (x : Codec) (y : Shared) : Shared :=
  { y with codecs := y.codecs.set k x }

/-- The next turn of instance `k`; nothing happens when there is no such instance. -/
def Shared.advance (k : Nat) (y : Shared) : Shared :=
  match y.codecs[k]? with
  | none => y
  | some x => { y.setCodec k (x.advance y.mem).1 with mem := (x.advance y.mem).2 }

/-- What presents no command is refused as in the base model, whether or not the instance is ready (30_encoding R68,
log entry 6). A presented command is issued to an instance that is ready; an instance with a command in progress
does not take it (R64). One that is issued with a `buffer_size` above `MEMLEN` is refused (20_memory R31). -/
def Shared.issue (k : Nat) (x : Codec) (c : Except Refusal Instr) (y : Shared) : Host.Outcome Shared Fault Refusal :=
  match c with
  | .error why => .refused why
  | .ok i =>
    if x.cmdReady then
      if i.bufferSize ≤ y.memLen then .next (y.setCodec k (x.take i)) else .refused .bufferTooLarge
    else .next y

/-- Reset of an instance whose command is not in progress leaves it idle with no response pending; the model does not
give the host the other move (70_reset_and_hazards R175, R176). -/
def Shared.resetCodec (k : Nat) (x : Codec) (y : Shared) : Host.Outcome Shared Fault Refusal :=
  if x.cmdReady then .next (y.setCodec k { x with rsp := none }) else .refused .resetDuringCommand

/-- One event. Nothing happens when there is no such instance; a host write outside the buffer is refused as in the
base model (log entry 8). -/
def Shared.event (ev : SharedEvent) (y : Shared) : Host.Outcome Shared Fault Refusal :=
  match ev with
  | .advance k => .next (y.advance k)
  | .issue k p =>
    match y.codecs[k]? with
    | none => .next y
    | some x => y.issue k x (portsCommand x.params.offW p)
  | .issueDescriptor k w =>
    match y.codecs[k]? with
    | none => .next y
    | some x => y.issue k x (descriptorCommand w)
  | .reset k =>
    match y.codecs[k]? with
    | none => .next y
    | some x => y.resetCodec k x
  | .hostWrite a b =>
    if a < y.memLen then .next { y with mem := Memory.write y.mem a b } else .refused .hostOutsideBuffer

/-- A schedule of turns: which instance takes the next one. -/
def Shared.run : List Nat → Shared → Shared
  | [], y => y
  | k :: rest, y => Shared.run rest (y.advance k)

/-- A schedule of events. -/
def Shared.runEvents : List SharedEvent → Shared → Host.Outcome Shared Fault Refusal
  | [], y => .next y
  | ev :: rest, y =>
    match y.event ev with
    | .next y' => Shared.runEvents rest y'
    | .fault r => .fault r
    | .refused r => .refused r

/-- No instance has a command in progress. -/
def Shared.allIdle (y : Shared) : Bool :=
  y.codecs.all Codec.cmdReady

/-- The base model's state with the parameters of an instance: what a command of that instance runs on alone. -/
def State.withParams (s : State) (params : BlockParams) : State :=
  { s with cfg := { s.cfg with toBlockParams := params } }

/-- 20_memory R46: the contract between two commands: their byte footprints are disjoint, or neither writes. -/
def keepsContract (i j : Instr) : Bool :=
  (match i, j with
    | .deca .., .deca .. => true
    | .deca .., .decb .. => true
    | .decb .., .deca .. => true
    | .decb .., .decb .. => true
    | _, _ => false) ||
  (footprint i).all fun a => !(footprint j).contains a

end Sys2Proof.Machine
end

