-- ==== Sys2Proof/Machine/Assembly.lean ====
section
/-! DEFINITION. The textual syntax of 30_encoding R71 and R72: one command on one line, and a program text as a list of
command lines in order. A text is a list of characters. There are no pseudo-instructions, labels, directives or
macros. -/

namespace Sys2Proof.Machine

/-- Space, tab and carriage return separate words and mean nothing else (DEDUCED: log entry 21). -/
def isBlank (c : Char) : Bool :=
  c == ' ' || c == '\t' || c == '\r'

/-- A text without the blanks at its two ends. -/
def trimBlanks (cs : List Char) : List Char :=
  ((cs.dropWhile isBlank).reverse.dropWhile isBlank).reverse

/-- The parts of a text between the characters `sep`, at least one. -/
def splitAtChar (sep : Char) : List Char → List (List Char)
  | [] => [[]]
  | c :: rest =>
    if c = sep then [] :: splitAtChar sep rest
    else
      match splitAtChar sep rest with
      | [] => [[c]]
      | part :: parts => (c :: part) :: parts

/-- The text up to the first `;`, which starts a comment. -/
def dropComment (cs : List Char) : List Char :=
  cs.takeWhile (· != ';')

/-- The text before the first `->` and, when there is one, the text after it. -/
def splitArrow : List Char → List Char × Option (List Char)
  | [] => ([], none)
  | c :: rest =>
    match c, rest with
    | '-', '>' :: name => ([], some name)
    | _, _ => (c :: (splitArrow rest).1, (splitArrow rest).2)

/-- The digits of a numeral, each at the position of its value; the six letters again in lower case. -/
def digitRow : List Char :=
  "0123456789ABCDEFabcdef".toList

/-- The value of a digit, from its place in the row. -/
def digitValue (c : Char) : Option Nat :=
  (digitRow.idxOf? c).map fun place => if place < 16 then place else place - 6

/-- Digits of the given base, most significant first, after a number already read. -/
def readDigits (base : Nat) : List Char → Nat → Option Nat
  | [], acc => some acc
  | c :: rest, acc =>
    match digitValue c with
    | none => none
    | some d => if d < base then readDigits base rest (acc * base + d) else none

/-- "unsigned numerals, decimal or `0x` hexadecimal" (R71), at least one digit. -/
def readNumeral (cs : List Char) : Option Nat :=
  match cs with
  | [] => none
  | '0' :: 'x' :: [] => none
  | '0' :: 'x' :: digits => readDigits 16 digits 0
  | digits => readDigits 10 digits 0

/-- The operands of a line: numerals between commas. -/
def readOperands (cs : List Char) : Option (List Nat) :=
  (splitAtChar ',' cs).mapM fun part => readNumeral (trimBlanks part)

/-- The mandatory endianness suffix (R71): there is no default. -/
def readEndian (cs : List Char) : Option Endian :=
  if cs = ['L', 'E'] then some .le
  else if cs = ['B', 'E'] then some .be
  else none

/-- The `value` operand, an unsigned integer of 64 bits (R59). -/
def readValue (v : Nat) : Option Value :=
  if v < 2 ^ 64 then some (BitVec.ofNat 64 v) else none

/-- The `bit_offset` operand: a command with one above 7 is refused (R59). -/
def readBitOffset (k : Nat) : Option (Fin 8) :=
  if h : k < 8 then some ⟨k, h⟩ else none

/-- R71: the mnemonic and the operands in the source's argument order without the `buffer` argument. -/
def readCommand (mnemonic : List Char) (e : Endian) (operands : List Nat) : Option Instr :=
  if mnemonic = ['E', 'N', 'C', 'A'] then
    match operands with
    | [size, off, v, n] => (readValue v).map fun v => .enca e size off v n
    | _ => none
  else if mnemonic = ['D', 'E', 'C', 'A'] then
    match operands with
    | [size, off, n] => some (.deca e size off n)
    | _ => none
  else if mnemonic = ['E', 'N', 'C', 'B'] then
    match operands with
    | [size, off, k, v, n] =>
      (readBitOffset k).bind fun k => (readValue v).map fun v => .encb e size off k v n
    | _ => none
  else if mnemonic = ['D', 'E', 'C', 'B'] then
    match operands with
    | [size, off, k, n] => (readBitOffset k).map fun k => .decb e size off k n
    | _ => none
  else none

/-- The command of a line without its comment and result name: mnemonic, dot, endianness, blanks, operands. -/
def readCommandText (cs : List Char) : Option Instr :=
  let text := trimBlanks cs
  let head := text.takeWhile fun c => !isBlank c
  match splitAtChar '.' head with
  | [mnemonic, suffix] =>
    (readEndian suffix).bind fun e => (readOperands (text.drop head.length)).bind (readCommand mnemonic e)
  | _ => none

/-- One line of a program text (R71). -/
inductive Line where
  /-- Nothing but blanks and a comment. -/
  | empty
  /-- A command, and the name of its result where the line gives one. -/
  | command (i : Instr) (name : Option (List Char))
deriving DecidableEq, Repr

/-- R71: a line. Only a decode line may name its result, and the name is not empty. DESIGN CHOICE (log entry 21): R71
says only `-> name`, and here the name is all of the text after the first `->` up to the comment, without the
blanks at its ends; blanks inside it and a further `->` belong to it. -/
def readLine (cs : List Char) : Option Line :=
  let text := trimBlanks (dropComment cs)
  if text = [] then some .empty
  else
    match splitArrow text with
    | (body, none) => (readCommandText body).map fun i => .command i none
    | (body, some name) =>
      match readCommandText body with
      | none => none
      | some i => if isEncode i || trimBlanks name = [] then none else some (.command i (some (trimBlanks name)))

/-- R72: a program text is a list of command lines; the commands, in order. -/
def readProgram (cs : List Char) : Option (List Instr) :=
  ((splitAtChar '\n' cs).mapM readLine).map fun lines =>
    lines.filterMap fun l =>
      match l with
      | .empty => none
      | .command i _ => some i

/-- The mnemonic of a command (R55). -/
def mnemonicText : Instr → List Char
  | .enca .. => ['E', 'N', 'C', 'A']
  | .deca .. => ['D', 'E', 'C', 'A']
  | .encb .. => ['E', 'N', 'C', 'B']
  | .decb .. => ['D', 'E', 'C', 'B']

/-- The endianness suffix. -/
def endianText : Endian → List Char
  | .le => ['L', 'E']
  | .be => ['B', 'E']

/-- The endianness operand of a command. -/
def endianOf : Instr → Endian
  | .enca e .. => e
  | .deca e .. => e
  | .encb e .. => e
  | .decb e .. => e

/-- The other operands in the order of R71. -/
def operandsOf : Instr → List Nat
  | .enca _ size off v n => [size, off, v.toNat, n]
  | .deca _ size off n => [size, off, n]
  | .encb _ size off bit v n => [size, off, bit.val, v.toNat, n]
  | .decb _ size off bit n => [size, off, bit.val, n]

/-- The decimal digits of a number in front of a text, at most `fuel` of them. -/
def writeDigits : Nat → Nat → List Char → List Char
  | 0, _, rest => rest
  | fuel + 1, n, rest =>
    let text := Char.ofNat ('0'.toNat + n % 10) :: rest
    if n / 10 = 0 then text else writeDigits fuel (n / 10) text

/-- A number as a decimal numeral. -/
def writeNumeral (n : Nat) : List Char :=
  writeDigits (n + 1) n []

/-- Numerals with a comma and a space between them. -/
def writeOperands : List Nat → List Char
  | [] => []
  | [n] => writeNumeral n
  | n :: rest => writeNumeral n ++ ',' :: ' ' :: writeOperands rest

/-- R71: a command as one line of text. -/
def writeCommand (i : Instr) : List Char :=
  mnemonicText i ++ '.' :: endianText (endianOf i) ++ ' ' :: writeOperands (operandsOf i)

/-- The host move that issues a command on the ports; none when an operand does not fit its port (30_encoding R56,
R58: `OFFW`, `CNTW` = 8). -/
def moveOf (offW : Nat) (i : Instr) : Option HostMove :=
  if i.count < 2 ^ 8 && portsFit offW (encodePorts i) then some (.command (encodePorts i)) else none

/-- The host's moves for a program text (10_state R12: the host issues the commands in list order). -/
def programMoves (offW : Nat) (cs : List Char) : Option (List HostMove) :=
  (readProgram cs).bind fun commands => commands.mapM (moveOf offW)

end Sys2Proof.Machine
end

