-- ==== Sys2Proof/Machine/LawTerms.lean ====
section
/-! DEFINITION. The helper functions of 42_codec_laws, used to state its laws. -/

namespace Sys2Proof.Machine

/-- Sum over `i` in `[0, n)` of `f i`. -/
def sumUpTo (n : Nat) (f : Nat → Nat) : Nat :=
  ascend n (fun i acc => acc + f i) 0

/-- `x[j]` of a natural number, 0 or 1 (00_scope R7). -/
def natBit (x j : Nat) : Nat :=
  x / 2 ^ j % 2

/-- `x[8k+7 : 8k]` of a natural number. -/
def natByte (x k : Nat) : Nat :=
  x / 2 ^ (8 * k) % 2 ^ 8

/-- 42_codec_laws R129: the mask `(1 << n) − 1` over the naturals. The shift loses nothing, so with n = 64 it is
2^64 − 1. -/
def fieldMask (n : Nat) : Nat :=
  1 <<< n - 1

/-- 42_codec_laws R127, R129: `x mod 2^n` over the naturals, what the mask leaves of `x`. -/
def lowBits (n x : Nat) : Nat :=
  x % 2 ^ n

/-- `rev_n(x)`: reverse the low `n` bits. -/
def revBits (n x : Nat) : Nat :=
  sumUpTo n fun j => natBit x j * 2 ^ (n - 1 - j)

/-- `byterev_q(x)`: reverse the low `q` bytes. -/
def revBytes (q x : Nat) : Nat :=
  sumUpTo q fun k => natByte x k * 2 ^ (8 * (q - 1 - k))

/-- `brev8_q(x)`: reverse the bits inside each of the low `q` bytes. -/
def revBitsInBytes (q x : Nat) : Nat :=
  sumUpTo q fun k => revBits 8 (natByte x k) * 2 ^ (8 * k)

/-- `L(BUF, S)`: the first `S` bytes as a little-endian integer. -/
def leInt (m : Memory) (size : Nat) : Nat :=
  sumUpTo size fun a => (Memory.read m a).toNat * 2 ^ (8 * a)

/-- `M(BUF, S)`: the first `S` bytes as a big-endian integer. -/
def beInt (m : Memory) (size : Nat) : Nat :=
  sumUpTo size fun a => (Memory.read m a).toNat * 2 ^ (8 * (size - 1 - a))

/-- The buffer bit at an absolute position (20_memory R32). -/
def bufBit (bn : BitNum) (m : Memory) (pos : Nat) : Bool :=
  getBit bn (Memory.read m (byteIndex pos)) (bitIndex pos)

end Sys2Proof.Machine
end

