-- ==== Sys2Proof/Safety.lean ====
section
/-! DEFINITION. What counts as a sound state and a sound access, in the terms the claims use. -/

namespace Sys2Proof.Machine

/-- The invariant of the machine: the buffer is in canonical form and lies in `[0, MEMLEN)` (10_state R10), every
access of the last step was to a byte that exists (30_encoding R63), and a delivered result is the last one
the host was given (10_state R14). `OFFW` is a width of 1 or more (93 U16). -/
def State.Inv (s : State) : Prop :=
  0 < s.cfg.offW ∧ Memory.wf s.buf = true ∧ Memory.below s.cfg.memLen s.buf = true ∧
    (∀ x ∈ s.bus, x.addr < s.cfg.memLen) ∧
    ∀ st v, s.rsp = some { result := some v, status := st } → s.results.getLast? = some v

/-- The invariant of several instances on one buffer: the buffer is as in `State.Inv`, every command in progress was
admitted at issue (20_memory R31), and a response on the ports is the last one the instance's host was given. -/
def Shared.Inv (y : Shared) : Prop :=
  Memory.wf y.mem = true ∧ Memory.below y.memLen y.mem = true ∧
    ∀ x ∈ y.codecs, (∀ f, x.command = some f → f.cmd.bufferSize ≤ y.memLen) ∧
      ∀ r, x.rsp = some r → x.given.getLast? = some r

/-- The host's move has a meaning for a block and buffer with these parameters: the only ones that have none are
those of 10_state R19, port values that the ports cannot carry, and a host write outside the buffer. -/
def moveAllowed (cfg : Config) : HostMove → Bool
  | .command p => portsFit cfg.offW p && decide (p.bufferSize ≤ cfg.memLen)
  | .descriptor w =>
    match decode w with
    | .ok i => decide (i.bufferSize ≤ cfg.memLen)
    | .error _ => false
  | .writeByte a _ => decide (a < cfg.memLen)
  | .reset => true

end Sys2Proof.Machine
end

