-- ==== Sys2Proof/Certificates/Slice0/Obligations.lean ====
section
/-! DEFINITION. The statements for the provers, from the numbered rules of spec/. Each docstring names the rule. -/

open Sys2Proof Sys2Proof.Machine

/-! ## Encoding -/

/-- 30_encoding R66: words written out field by field from the layout (95_test_vectors A2, B1, E14, X3, X10, X4, X7,
X8) decode to the commands they stand for, or to none. -/
def Obligations.DecodesWrittenOutWords : Prop :=
  decode 0x000000000000ABCD000000040000000100000201#160 = .ok (.enca .be 4 1 0xABCD 2) ∧
  decode 0x0000000000000000000000050000000100000202#160 = .ok (.deca .le 5 1 2) ∧
  decode 0x0123456789ABCDEF000000090000000000004025#160 = .ok (.encb .be 9 0 4 0x0123456789ABCDEF 64) ∧
  decode 0x0000000000000000000000050000000100000207#160 = .ok (.decb .be 5 1 0 2) ∧
  decode 0x000000000000ABCD000000040000000100000224#160 = .ok (.encb .le 4 1 4 0xABCD 2) ∧
  decode 0x000000000000ABCD000000040000000100000240#160 = .error .reservedBits ∧
  decode 0x000000000000ABCD000000040000000100000208#160 = .error .unusedBitOffset ∧
  decode 0x0000000000000001000000050000000100000202#160 = .error .unusedValue

/-- 30_encoding R73: encoding a command and decoding the result gives the command back; decoding a valid word gives a
command that the descriptor can spell, and encoding it gives the word back. On the ports every value is a
command, and the ports that present a command whose count fits them decode to it. -/
def Obligations.DecodeAndEncodeAgree : Prop :=
  (∀ i : Instr, WellFormed i = true → decode (encode i) = .ok i) ∧
  (∀ (w : BitVec 160) (i : Instr), decode w = .ok i → WellFormed i = true ∧ encode i = w) ∧
  ∀ i : Instr, i.count < 2 ^ 8 → decodePorts (encodePorts i) = i

/-- 30_encoding R71: the line of text that spells a command (mnemonic, dot, endianness, operands in the source's
argument order) is read as that command. That blanks may stand between the words is an inference (log entry
21). -/
def Obligations.TextIsReadBack : Prop :=
  ∀ i : Instr, readCommandText (writeCommand i) = some i

/-- 30_encoding R68: a word spells no command exactly when a reserved bit or an unused field is not 0 (CMD[7:6],
CMD[31:16]; CMD[5:3] in format A; CMD[159:96] in a decode command), and the machine refuses it. -/
def Obligations.InvalidDescriptorsAreRefused : Prop :=
  (∀ w : BitVec 160, (∃ why, decode w = .error why) ↔
    w.extractLsb' 6 2 ≠ 0#2 ∨ w.extractLsb' 16 16 ≠ 0#16 ∨
    (w.getLsbD 2 = false ∧ w.extractLsb' 3 3 ≠ 0#3) ∨ (w.getLsbD 1 = true ∧ w.extractLsb' 96 64 ≠ 0#64)) ∧
  ∀ (s : State) (w : BitVec 160) (rest : List HostMove) (why : DecodeError),
    s.host = .descriptor w :: rest → decode w = .error why → step s = .refused (.invalidDescriptor why)

/-- 30_encoding R60: the eight function codes and the commands they select. The fields a command does not use are
ignored on the ports (R67). -/
def Obligations.FunctionCodeSelectsCommand : Prop :=
  ∀ (size off : Nat) (bit : Fin 8) (n : BitVec 8) (v : Value),
    decodePorts ⟨0b000, size, off, bit, n, v⟩ = .enca .le size off v n.toNat ∧
    decodePorts ⟨0b001, size, off, bit, n, v⟩ = .enca .be size off v n.toNat ∧
    decodePorts ⟨0b010, size, off, bit, n, v⟩ = .deca .le size off n.toNat ∧
    decodePorts ⟨0b011, size, off, bit, n, v⟩ = .deca .be size off n.toNat ∧
    decodePorts ⟨0b100, size, off, bit, n, v⟩ = .encb .le size off bit v n.toNat ∧
    decodePorts ⟨0b101, size, off, bit, n, v⟩ = .encb .be size off bit v n.toNat ∧
    decodePorts ⟨0b110, size, off, bit, n, v⟩ = .decb .le size off bit n.toNat ∧
    decodePorts ⟨0b111, size, off, bit, n, v⟩ = .decb .be size off bit n.toNat

/-! ## The step and the host -/

/-- 20_memory R45, 30_encoding R73: when the host's next move is a command, as a descriptor or on ports that can carry
it, the step is exec of that command on the state in which the move has left the host's list, the last step's response and accesses are
gone, and the counter of the free values has advanced. These parts are the model's choice: the counter `tick` (log
entry 5), the list of the host's moves (log entry 7), and that a descriptor runs under every `OFFW`, with offsets
of 2^OFFW or more too (log entry 6). -/
def Obligations.StepRunsTheDecodedCommand : Prop :=
  (∀ (s : State) (w : BitVec 160) (rest : List HostMove) (i : Instr),
    s.host = .descriptor w :: rest → decode w = .ok i →
      step s = exec i { s with host := rest, rsp := none, bus := [], tick := s.tick + 1 }) ∧
  ∀ (s : State) (p : CmdPorts) (rest : List HostMove),
    s.host = .command p :: rest → portsFit s.cfg.offW p = true →
      step s = exec (decodePorts p) { s with host := rest, rsp := none, bus := [], tick := s.tick + 1 }

/-- 00_scope R5, 30_encoding R56, R63: the two offset ports are `OFFW` bits wide. Port values that fit are those below
2^OFFW; others cannot be presented, and the step refuses them (log entry 6: that it is a refusal is the model's
choice); and every access of a command on the ports is to a byte index that the `OFFW`-bit `mem_addr` carries. -/
def Obligations.OffsetPortsAreOffwBitsWide : Prop :=
  ∀ (s : State) (p : CmdPorts) (rest : List HostMove), s.host = .command p :: rest →
    (2 ^ s.cfg.offW ≤ p.bufferSize ∨ 2 ^ s.cfg.offW ≤ p.byteOffset → step s = .refused .notPresentable) ∧
    (p.bufferSize < 2 ^ s.cfg.offW → p.byteOffset < 2 ^ s.cfg.offW → p.bufferSize ≤ s.cfg.memLen →
      ∃ t, step s = .next t ∧ ∀ x ∈ t.bus, x.addr < p.bufferSize ∧ x.addr < 2 ^ s.cfg.offW)

/-- 70_reset R175, R176, R183, R188: the host's other moves. Reset leaves the block idle and the buffer untouched; a
host write changes one byte; with no move the block idles. That a host write outside the buffer is refused is
the model's choice (log entry 8), and so is what becomes of the model's own fields (log entries 5 and 7). -/
def Obligations.StepMakesTheHostsOtherMoves : Prop :=
  (∀ (s : State) (rest : List HostMove), s.host = .reset :: rest →
    step s = .next { s with host := rest, rsp := none, bus := [], tick := s.tick + 1 }) ∧
  (∀ (s : State) (a : Nat) (b : Byte) (rest : List HostMove), s.host = .writeByte a b :: rest →
    (a < s.cfg.memLen → ∃ m : Memory, (∀ x, Memory.read m x = if x = a then b else Memory.read s.buf x) ∧
      step s = .next { s with buf := m, host := rest, rsp := none, bus := [], tick := s.tick + 1 }) ∧
    (s.cfg.memLen ≤ a → step s = .refused .hostOutsideBuffer)) ∧
  ∀ s : State, s.host = [] → step s = .next { s with rsp := none, bus := [], tick := s.tick + 1 }

/-- 70_reset R175, 10_state R22: after reset no response is pending, no access has been made, and the invariant
holds. The buffer's bytes, `MEMLEN` and `HAS_STATUS` are the model's choice (log entries 2, 3, 4) and the
statement names none of them. -/
def Obligations.ResetIsIdleAndMeetsTheInvariant : Prop :=
  State.reset.rspValid = false ∧ State.reset.cmdReady = true ∧ State.reset.bus = [] ∧ State.reset.Inv

/-- 10_state R10, R14, 30_encoding R63: every step keeps the invariant: the buffer is in canonical form and inside
`[0, MEMLEN)`, `OFFW` is at least 1, every access of the step is to a byte that exists, and a delivered result is the host's last. -/
def Obligations.StepKeepsTheInvariant : Prop :=
  ∀ s t : State, s.Inv → step s = .next t → t.Inv

/-- 10_state R21, R12: no step changes a parameter; a step takes exactly the first of the host's moves; it only adds
to the results the host has been given. -/
def Obligations.StepKeepsParametersAndTakesOneMove : Prop :=
  ∀ s t : State, step s = .next t →
    t.cfg = s.cfg ∧ t.host = s.host.tail ∧ (t.results = s.results ∨ ∃ r, t.results = s.results ++ [r])

/-- 60_exceptions R150, 10_state R19: a step answers a next state unless the host's move has no meaning, and then it is
refused for one of the four reasons at the boundary. (That port values which the ports cannot carry, and a host
write outside the buffer, are refused is the model's: log entries 6 and 8.) -/
def Obligations.StepStopsOnlyAtTheBoundary : Prop :=
  (∀ s : State, (∀ m ∈ s.host.head?, moveAllowed s.cfg m = true) → ∃ t, step s = .next t) ∧
  ∀ (s : State) (m : HostMove) (rest : List HostMove), s.host = m :: rest →
    moveAllowed s.cfg m = false →
      step s = .refused .bufferTooLarge ∨ (∃ why, step s = .refused (.invalidDescriptor why)) ∨
        step s = .refused .notPresentable ∨ step s = .refused .hostOutsideBuffer

/-- 70_reset R187, R188: a program of k commands ends after k steps; so do k host moves of any kind that have a
meaning. -/
def Obligations.RunOfTheHostsMovesEnds : Prop :=
  ∀ s : State, (∀ m ∈ s.host, moveAllowed s.cfg m = true) →
    ∃ t : State, Host.Core.run Sys2Proof.core s.host.length s = Host.Outcome.next t ∧ t.host = [] ∧
      t.cfg = s.cfg

/-- 20_memory R31: a command with `buffer_size > MEMLEN` is refused. Every other one runs; it never reads or writes a
byte at index `buffer_size` or above; and all its tests compare against `buffer_size`, never `MEMLEN`: under
another `MEMLEN` that is large enough it does the same. -/
def Obligations.BufferSizeGoverns : Prop :=
  (∀ (i : Instr) (s : State), s.cfg.memLen < i.bufferSize → exec i s = .refused .bufferTooLarge) ∧
  ∀ (i : Instr) (s : State), i.bufferSize ≤ s.cfg.memLen →
    ∃ (t : State) (accesses : List Access), exec i s = .next t ∧ t.bus = s.bus ++ accesses ∧
      (∀ x ∈ accesses, x.addr < i.bufferSize) ∧
      (∀ a, i.bufferSize ≤ a → Memory.read t.buf a = Memory.read s.buf a) ∧
      ∀ len, i.bufferSize ≤ len →
        exec i { s with cfg := { s.cfg with memLen := len } } =
          .next { t with cfg := { t.cfg with memLen := len } }

/-! ## What each command does -/

/-- 40_aligned R82 (R34, R80, R81, R83, R84): ENCA completes; when the span test passes, byte `i` of the span is byte
`k(i)` of the value; every other byte, and every byte at all when the test fails, is as before. It makes one
write a byte of the span in ascending order and no other access; it has no result and its condition class; its
function code is 00e. -/
def Obligations.EncaWritesTheSpan : Prop :=
  ∀ (e : Endian) (size off : Nat) (v : Value) (n : Nat) (s : State), size ≤ s.cfg.memLen →
    (∃ t, exec (.enca e size off v n) s = .next t ∧
      (∀ a, Memory.read t.buf a =
        if off + n ≤ size ∧ n ≤ 8 ∧ off ≤ a ∧ a < off + n then
          v.extractLsb' (8 * (if e = .le then a - off else n - 1 - (a - off))) 8
        else Memory.read s.buf a) ∧
      t.bus = s.bus ++
        (if off + n ≤ size ∧ n ≤ 8 then
          (List.range n).map fun i => Access.write (off + i) (Memory.read t.buf (off + i))
        else []) ∧
      t.rsp = some { result := none, status := alignedClass size off n } ∧
      t.cfg = s.cfg ∧ t.host = s.host ∧ t.results = s.results ∧ t.tick = s.tick) ∧
    (encode (.enca e size off v n)).extractLsb' 0 3 = if e = .le then 0b000#3 else 0b001#3

/-- 40_aligned R85 (R34, R80, R81, R86): DECA completes and delivers a result: when the span test passes, byte `k(i)` of
the result is byte `i` of the span and every bit at or above 8n is 0; otherwise the result is 0. It makes one
read a byte of the span in ascending order and no other access. Nothing else changes but the host's list of
results; its function code is 01e. -/
def Obligations.DecaReadsTheSpan : Prop :=
  ∀ (e : Endian) (size off n : Nat) (s : State), size ≤ s.cfg.memLen →
    (∃ t r, exec (.deca e size off n) s = .next t ∧
      t = { s with
        rsp := some { result := some r, status := alignedClass size off n }
        results := s.results ++ [r]
        bus := s.bus ++
          if off + n ≤ size ∧ n ≤ 8 then
            (List.range n).map fun i => Access.read (off + i) (Memory.read s.buf (off + i))
          else [] } ∧
      (off + n ≤ size ∧ n ≤ 8 →
        (∀ i, i < n → r.extractLsb' (8 * (if e = .le then i else n - 1 - i)) 8 = Memory.read s.buf (off + i)) ∧
        ∀ j, 8 * n ≤ j → r.getLsbD j = false) ∧
      (¬(off + n ≤ size ∧ n ≤ 8) → r = 0)) ∧
    (encode (.deca e size off n)).extractLsb' 0 3 = if e = .le then 0b010#3 else 0b011#3

/-- 41_bit_codec R104 (R36, R101, R102, R103): ENCB completes; each in-range position of the field holds bit `j(i)` of the
value; every other bit of the buffer is as before. Every access is to the byte of an in-range bit, a read and
then a write for each; it has no result and its condition class; its function code is 10e. For either
`BITNUM`. -/
def Obligations.EncbWritesTheBits : Prop :=
  ∀ (e : Endian) (size off : Nat) (bit : Fin 8) (v : Value) (n : Nat) (s : State), size ≤ s.cfg.memLen →
    (∃ t accesses, exec (.encb e size off bit v n) s = .next t ∧
      (∀ pos, bufBit s.cfg.bitNum t.buf pos =
        if n ≤ 64 ∧ off * 8 + bit.val ≤ pos ∧ pos < off * 8 + bit.val + n ∧ pos / 8 < size then
          v.getLsbD (if e = .le then pos - (off * 8 + bit.val) else n - 1 - (pos - (off * 8 + bit.val)))
        else bufBit s.cfg.bitNum s.buf pos) ∧
      t.bus = s.bus ++ accesses ∧
      accesses.map (fun x => (x.isWrite, x.addr)) =
        (if n ≤ 64 then
          (((List.range n).map fun i => (off * 8 + bit.val + i) / 8).filter (· < size)).flatMap
            fun a => [(false, a), (true, a)]
        else []) ∧
      t.rsp = some { result := none, status := bitClass size (off * 8 + bit.val) n } ∧
      t.cfg = s.cfg ∧ t.host = s.host ∧ t.results = s.results ∧ t.tick = s.tick) ∧
    (encode (.encb e size off bit v n)).extractLsb' 0 3 = if e = .le then 0b100#3 else 0b101#3

/-- 41_bit_codec R108 (R36, R101, R102, R103): DECB completes and delivers a result: bit `j(i)` of it is the buffer bit at
`start_bit + i`, or 0 when that is out of range; bits at and above n are 0; with n > 64 the result is 0. It
makes one read for each in-range bit in ascending order and no other access. Nothing else changes but the
host's list of results; its function code is 11e. For either `BITNUM`. -/
def Obligations.DecbReadsTheBits : Prop :=
  ∀ (e : Endian) (size off : Nat) (bit : Fin 8) (n : Nat) (s : State), size ≤ s.cfg.memLen →
    (∃ t r, exec (.decb e size off bit n) s = .next t ∧
      t = { s with
        rsp := some { result := some r, status := bitClass size (off * 8 + bit.val) n }
        results := s.results ++ [r]
        bus := s.bus ++
          if n ≤ 64 then
            (((List.range n).map fun i => (off * 8 + bit.val + i) / 8).filter (· < size)).map
              fun a => Access.read a (Memory.read s.buf a)
          else [] } ∧
      (n ≤ 64 →
        (∀ i, i < n → r.getLsbD (if e = .le then i else n - 1 - i) =
          (decide ((off * 8 + bit.val + i) / 8 < size) &&
            bufBit s.cfg.bitNum s.buf (off * 8 + bit.val + i))) ∧
        ∀ j, n ≤ j → r.getLsbD j = false) ∧
      (64 < n → r = 0)) ∧
    (encode (.decb e size off bit n)).extractLsb' 0 3 = if e = .le then 0b110#3 else 0b111#3

/-- 42_codec_laws R133: byte isolation. After any ENCA every byte outside the span is unchanged, and every byte when the
span test fails; after any ENCB every bit outside the field is unchanged and every byte outside the footprint. -/
def Obligations.EncodesKeepEverythingOutsideTheField : Prop :=
  (∀ (e : Endian) (size off : Nat) (v : Value) (n : Nat) (s : State), size ≤ s.cfg.memLen →
    ∃ t, exec (.enca e size off v n) s = .next t ∧
      ∀ a, (a < off ∨ off + n ≤ a ∨ size < off + n ∨ 8 < n) → Memory.read t.buf a = Memory.read s.buf a) ∧
  ∀ (e : Endian) (size off : Nat) (bit : Fin 8) (v : Value) (n : Nat) (s : State), size ≤ s.cfg.memLen →
    ∃ t, exec (.encb e size off bit v n) s = .next t ∧
      (∀ pos, (pos < startBit off bit ∨ startBit off bit + n ≤ pos) →
        bufBit s.cfg.bitNum t.buf pos = bufBit s.cfg.bitNum s.buf pos) ∧
      ∀ a, a ∉ footprint (.encb e size off bit v n) → Memory.read t.buf a = Memory.read s.buf a

/-- The frame of the two encodes (R82, R104; 20_memory R39): nothing changes but the bytes of the footprint, the
response and the record of accesses. -/
def Obligations.EncodeFrame : Prop :=
  ∀ (i : Instr) (s t : State), isEncode i = true → exec i s = .next t →
    t.cfg = s.cfg ∧ t.host = s.host ∧ t.results = s.results ∧ t.tick = s.tick ∧
      ∀ a, a ∉ footprint i → Memory.read t.buf a = Memory.read s.buf a

/-- The frame of the two decodes (R85, R108; 42_codec_laws R141): no byte of the buffer changes; nothing changes but the
response, the record of accesses and the host's list of results, which gains the one result. -/
def Obligations.DecodeFrame : Prop :=
  ∀ (i : Instr) (s t : State), isEncode i = false → exec i s = .next t →
    t.buf = s.buf ∧ (∀ a, Memory.read t.buf a = Memory.read s.buf a) ∧
      t.cfg = s.cfg ∧ t.host = s.host ∧ t.tick = s.tick ∧
      ∃ r, t.rsp = some { result := some r, status := condClass i } ∧ t.results = s.results ++ [r]

/-! ## The buffer port -/

/-- 20_memory R39, R40, R52: a command accesses exactly the bytes of its footprint, in ascending order of the loop: one
access a byte or a bit, two for each bit of ENCB; a decode never writes and ENCA never reads. -/
def Obligations.AccessesAreTheFootprint : Prop :=
  ∀ (i : Instr) (s : State), i.bufferSize ≤ s.cfg.memLen →
    ∃ (t : State) (accesses : List Access), exec i s = .next t ∧ t.bus = s.bus ++ accesses ∧
      accesses.map (·.addr) =
        (match i with
          | .enca .. => footprint i
          | .deca .. => footprint i
          | .encb .. => (footprint i).flatMap fun a => [a, a]
          | .decb .. => footprint i) ∧
      accesses.length = accessCount i ∧
      (isEncode i = false → ∀ x ∈ accesses, x.isWrite = false) ∧
      ((∃ e size off v n, i = .enca e size off v n) → ∀ x ∈ accesses, x.isWrite = true) ∧
      ∀ a ∈ footprint i, a < i.bufferSize

/-- 30_encoding R63, 10_state R14: a completing command raises `rsp_valid`; a decode shows its result on `rsp_value`, the
one the host is given; an encode gives the host none. When the host resets, writes a byte or makes no move,
`rsp_valid` is 0. (What `rsp_value` shows otherwise is a free value, log entry 5, and no clause speaks of it.) -/
def Obligations.ResponsePortsShowTheCompletion : Prop :=
  (∀ (s t : State) (m : HostMove) (rest : List HostMove) (i : Instr), s.host = m :: rest →
    (m = .descriptor (encode i) ∧ WellFormed i = true ∨ ∃ p, m = .command p ∧ decodePorts p = i) →
    step s = .next t →
      t.rspValid = true ∧ (isEncode i = false → t.results = s.results ++ [t.rspValue]) ∧
        (isEncode i = true → t.results = s.results)) ∧
  ∀ s t : State, (s.host = [] ∨ (∃ rest, s.host = .reset :: rest) ∨ ∃ a b rest, s.host = .writeByte a b :: rest) →
    step s = .next t → t.rspValid = false ∧ t.bus = [] ∧ t.results = s.results

/-! ## The silent conditions and the condition class -/

/-- 60_exceptions R153: the condition class every command completes with, a function of its operands alone. -/
def Obligations.ConditionClass : Prop :=
  ∀ (i : Instr) (s : State), i.bufferSize ≤ s.cfg.memLen →
    ∃ t r, exec i s = .next t ∧ t.rsp = some r ∧
      r.status =
        match i with
        | .enca _ size off _ n =>
          if n > 8 then .widthTooLarge else if off + n > size then .outOfRange else .ok
        | .deca _ size off n =>
          if n > 8 then .widthTooLarge else if off + n > size then .outOfRange else .ok
        | .encb _ size off bit _ n =>
          if n > 64 then .widthTooLarge
          else if n > 0 ∧ off * 8 + bit.val + n > 8 * size then .outOfRange else .ok
        | .decb _ size off bit n =>
          if n > 64 then .widthTooLarge
          else if n > 0 ∧ off * 8 + bit.val + n > 8 * size then .outOfRange else .ok

/-- 60_exceptions R154: with `HAS_STATUS` = 1 the completing command's class is on `rsp_status` as 0, 1 or 2 and never as
3; with `HAS_STATUS` = 0 there is no status port; no buffer byte and no result depends on the parameter; and no
command reads or keeps the status of the one before it. -/
def Obligations.StatusOutputIsInformational : Prop :=
  ∀ (i : Instr) (s : State), i.bufferSize ≤ s.cfg.memLen →
    ∃ t, exec i s = .next t ∧ t.rspValid = true ∧
      (s.cfg.hasStatus = true → t.rspStatus =
        some (match condClass i with | .ok => 0#2 | .outOfRange => 1#2 | .widthTooLarge => 2#2)) ∧
      (s.cfg.hasStatus = true → t.rspStatus ≠ some 3#2) ∧
      (s.cfg.hasStatus = false → t.rspStatus = none) ∧
      (∀ h, exec i { s with cfg := { s.cfg with hasStatus := h } } =
        .next { t with cfg := { t.cfg with hasStatus := h } }) ∧
      ∀ r, exec i { s with rsp := r } = .next t

/-- 60_exceptions R152, 41_bit_codec R101, R110: a count above the limit makes the command do nothing: no access, no
write, and a decode result of 0. -/
def Obligations.OversizedWidthDoesNothing : Prop :=
  ∀ (i : Instr) (s : State), i.bufferSize ≤ s.cfg.memLen →
    (match i with
      | .enca _ _ _ _ n => 8 < n
      | .deca _ _ _ n => 8 < n
      | .encb _ _ _ _ _ n => 64 < n
      | .decb _ _ _ _ n => 64 < n) →
    ∃ t, exec i s = .next t ∧ t.buf = s.buf ∧ t.bus = s.bus ∧
      t.rsp = some { result := if isEncode i then none else some 0, status := .widthTooLarge }

/-- 40_aligned R87, 41_bit_codec R111: with a count of 0 nothing is accessed or written and a decode returns 0. -/
def Obligations.ZeroCountDoesNothing : Prop :=
  ∀ (i : Instr) (s : State), i.bufferSize ≤ s.cfg.memLen → i.count = 0 →
    ∃ t c, exec i s = .next t ∧ t.buf = s.buf ∧ t.bus = s.bus ∧
      t.rsp = some { result := if isEncode i then none else some 0, status := c }

/-- 40_aligned R84: when the span test fails ENCA is a no-op, no byte changing and no access made; when it passes
exactly the bytes of the span are written and every other byte keeps its value. -/
def Obligations.EncaIsAllOrNothing : Prop :=
  ∀ (e : Endian) (size off : Nat) (v : Value) (n : Nat) (s : State), size ≤ s.cfg.memLen →
    ∃ t, exec (.enca e size off v n) s = .next t ∧
      (size < off + n ∨ 8 < n → t.buf = s.buf ∧ t.bus = s.bus) ∧
      (off + n ≤ size ∧ n ≤ 8 → ∃ accesses, t.bus = s.bus ++ accesses ∧
        accesses.map (fun x => (x.isWrite, x.addr)) = (List.range n).map (fun i => (true, off + i)) ∧
        ∀ a, a < off ∨ off + n ≤ a → Memory.read t.buf a = Memory.read s.buf a)

/-- 40_aligned R86: when the span test fails DECA returns 0 and the buffer is not read. The result alone does not tell
it from a field that holds zero (60_exceptions R157); the condition class does. -/
def Obligations.DecaIsZeroOnFailure : Prop :=
  (∀ (e : Endian) (size off n : Nat) (s : State), size ≤ s.cfg.memLen → (size < off + n ∨ 8 < n) →
    ∃ t c, exec (.deca e size off n) s = .next t ∧ t.bus = s.bus ∧ t.buf = s.buf ∧
      t.rsp = some { result := some 0, status := c } ∧ c ≠ .ok) ∧
  ∀ (e : Endian) (size off n : Nat) (s : State), size ≤ s.cfg.memLen → off + n ≤ size → n ≤ 8 →
    (∀ i, i < n → Memory.read s.buf (off + i) = 0) →
      ∃ t, exec (.deca e size off n) s = .next t ∧ t.rsp = some { result := some 0, status := .ok }

/-- 41_bit_codec R105: with `m` of R102 the bits `i < m` are written and the bits `i ≥ m` are dropped; under LE those are
the low m bits of the field, under BE its high m bits; no byte at index `buffer_size` or above is read or
written. -/
def Obligations.EncbOverrunWritesTheInRangePart : Prop :=
  ∀ (size off : Nat) (bit : Fin 8) (v : Value) (n : Nat) (s : State), size ≤ s.cfg.memLen → n ≤ 64 →
    ∀ m, m = min n (8 * size - startBit off bit) →
      (∃ t accesses, exec (.encb .le size off bit v n) s = .next t ∧
        (∀ i, i < m → bufBit s.cfg.bitNum t.buf (startBit off bit + i) = v.getLsbD i) ∧
        (∀ pos, pos < startBit off bit ∨ startBit off bit + m ≤ pos →
          bufBit s.cfg.bitNum t.buf pos = bufBit s.cfg.bitNum s.buf pos) ∧
        t.bus = s.bus ++ accesses ∧ ∀ x ∈ accesses, x.addr < size) ∧
      ∃ t accesses, exec (.encb .be size off bit v n) s = .next t ∧
        (∀ i, i < m → bufBit s.cfg.bitNum t.buf (startBit off bit + i) = v.getLsbD (n - 1 - i)) ∧
        (∀ pos, pos < startBit off bit ∨ startBit off bit + m ≤ pos →
          bufBit s.cfg.bitNum t.buf pos = bufBit s.cfg.bitNum s.buf pos) ∧
        t.bus = s.bus ++ accesses ∧ ∀ x ∈ accesses, x.addr < size

/-- 41_bit_codec R109: the bits `i < m` come from the buffer and the others are 0: under LE the data sits in result bits
[0, m), under BE in [n − m, n); with m = 0 the result is 0 and the buffer is not read. -/
def Obligations.DecbOverrunReadsTheInRangePart : Prop :=
  ∀ (size off : Nat) (bit : Fin 8) (n : Nat) (s : State), size ≤ s.cfg.memLen → n ≤ 64 →
    ∀ m, m = min n (8 * size - startBit off bit) →
      (∃ t r, exec (.decb .le size off bit n) s = .next t ∧ t.rsp.bind (·.result) = some r ∧
        (∀ i, i < m → r.getLsbD i = bufBit s.cfg.bitNum s.buf (startBit off bit + i)) ∧
        (∀ j, m ≤ j → r.getLsbD j = false) ∧ (m = 0 → r = 0 ∧ t.bus = s.bus)) ∧
      ∃ t r, exec (.decb .be size off bit n) s = .next t ∧ t.rsp.bind (·.result) = some r ∧
        (∀ i, i < m → r.getLsbD (n - 1 - i) = bufBit s.cfg.bitNum s.buf (startBit off bit + i)) ∧
        (∀ j, j < n - m ∨ n ≤ j → r.getLsbD j = false) ∧ (m = 0 → r = 0 ∧ t.bus = s.bus)

/-- 42_codec_laws R135: bounds no-op on the aligned path. On the bit path only a field with `start_bit ≥ 8·buffer_size`,
or with `bit_count > 64`, leaves the buffer unchanged and decodes to 0; an overrunning field can change it. -/
def Obligations.BoundsNoOp : Prop :=
  (∀ (e : Endian) (size off : Nat) (v : Value) (n : Nat) (s : State), size ≤ s.cfg.memLen → size < off + n →
    (∃ t, exec (.enca e size off v n) s = .next t ∧ t.buf = s.buf) ∧
    ∃ t, exec (.deca e size off n) s = .next t ∧ t.rsp.bind (·.result) = some 0) ∧
  (∀ (e : Endian) (size off : Nat) (bit : Fin 8) (v : Value) (n : Nat) (s : State), size ≤ s.cfg.memLen →
    (8 * size ≤ startBit off bit ∨ 64 < n) →
    (∃ t, exec (.encb e size off bit v n) s = .next t ∧ t.buf = s.buf) ∧
    ∃ t, exec (.decb e size off bit n) s = .next t ∧ t.rsp.bind (·.result) = some 0) ∧
  ∀ (e : Endian) (size off : Nat) (bit : Fin 8) (n : Nat) (s : State), size ≤ s.cfg.memLen → n ≤ 64 →
    startBit off bit < 8 * size → 8 * size < startBit off bit + n →
    ∃ (v : Value) (t : State), exec (.encb e size off bit v n) s = .next t ∧
      bufBit s.cfg.bitNum t.buf (startBit off bit) ≠ bufBit s.cfg.bitNum s.buf (startBit off bit)

/-! ## The laws of 42_codec_laws -/

/-- 42_codec_laws R127 (40_aligned R83, 41_bit_codec R106): an encode uses only the low `width` bits of the value. -/
def Obligations.EncodeTruncates : Prop :=
  (∀ (e : Endian) (size off : Nat) (v : Value) (n : Nat) (s : State),
    exec (.enca e size off v n) s = exec (.enca e size off (BitVec.ofNat 64 (lowBits (8 * n) v.toNat)) n) s) ∧
  ∀ (e : Endian) (size off : Nat) (bit : Fin 8) (v : Value) (n : Nat) (s : State),
    exec (.encb e size off bit v n) s = exec (.encb e size off bit (BitVec.ofNat 64 (lowBits n v.toNat)) n) s

/-- 42_codec_laws R143: every DECA result is below 2^(8·byte_count) and every DECB result below 2^bit_count; under a
failed span test, an oversized count or a count of 0 the result is 0. -/
def Obligations.ResultsAreBounded : Prop :=
  (∀ (e : Endian) (size off n : Nat) (s : State), size ≤ s.cfg.memLen →
    ∃ t r, exec (.deca e size off n) s = .next t ∧ t.rsp.bind (·.result) = some r ∧ r.toNat < 2 ^ (8 * n) ∧
      (size < off + n ∨ 8 < n ∨ n = 0 → r = 0)) ∧
  ∀ (e : Endian) (size off : Nat) (bit : Fin 8) (n : Nat) (s : State), size ≤ s.cfg.memLen →
    ∃ t r, exec (.decb e size off bit n) s = .next t ∧ t.rsp.bind (·.result) = some r ∧ r.toNat < 2 ^ n ∧
      (64 < n ∨ n = 0 → r = 0)

/-- 42_codec_laws R130: round trip on the bit path, for every `BITNUM`, order, value and buffer; n = 0 included. -/
def Obligations.RoundTripOnTheBitPath : Prop :=
  ∀ (e : Endian) (size off : Nat) (bit : Fin 8) (v : Value) (n : Nat) (s : State), size ≤ s.cfg.memLen →
    n ≤ 64 → startBit off bit + n ≤ 8 * size →
    ∃ t u, exec (.encb e size off bit v n) s = .next t ∧ exec (.decb e size off bit n) t = .next u ∧
      u.rsp.bind (·.result) = some (BitVec.ofNat 64 (lowBits n v.toNat))

/-- 42_codec_laws R129: the mask `(1 << n) − 1` of the source's round-trip property is read over the naturals: masking
with it is `value mod 2^n`, that is what DECB returns after ENCB, and with n = 64 it is the whole value. -/
def Obligations.MaskIsTakenOverTheNaturals : Prop :=
  ∀ (e : Endian) (size off : Nat) (bit : Fin 8) (v : Value) (n : Nat) (s : State), size ≤ s.cfg.memLen →
    n ≤ 64 → startBit off bit + n ≤ 8 * size →
    ∃ t u r, exec (.encb e size off bit v n) s = .next t ∧ exec (.decb e size off bit n) t = .next u ∧
      u.rsp.bind (·.result) = some r ∧ r.toNat = v.toNat &&& fieldMask n ∧
      v.toNat &&& fieldMask n = v.toNat % 2 ^ n ∧ (n = 64 → r = v)

/-- 42_codec_laws R131: round trip on the aligned path. -/
def Obligations.RoundTripOnTheAlignedPath : Prop :=
  ∀ (e : Endian) (size off : Nat) (v : Value) (n : Nat) (s : State), size ≤ s.cfg.memLen →
    n ≤ 8 → off + n ≤ size →
    ∃ t u, exec (.enca e size off v n) s = .next t ∧ exec (.deca e size off n) t = .next u ∧
      u.rsp.bind (·.result) = some (BitVec.ofNat 64 (lowBits (8 * n) v.toNat))

/-- 42_codec_laws R132: endianness symmetry on the aligned path; for n = 1 the two orders coincide. -/
def Obligations.EndiannessSymmetryOnTheAlignedPath : Prop :=
  (∀ (size off : Nat) (v : Value) (n : Nat) (s : State), size ≤ s.cfg.memLen → n ≤ 8 → off + n ≤ size →
    (∃ t u, exec (.enca .le size off v n) s = .next t ∧ exec (.deca .be size off n) t = .next u ∧
      u.rsp.bind (·.result) = some (BitVec.ofNat 64 (revBytes n (lowBits (8 * n) v.toNat)))) ∧
    ∃ t u, exec (.enca .be size off v n) s = .next t ∧ exec (.deca .le size off n) t = .next u ∧
      u.rsp.bind (·.result) = some (BitVec.ofNat 64 (revBytes n (lowBits (8 * n) v.toNat)))) ∧
  ∀ (size off : Nat) (v : Value) (s : State),
    exec (.enca .le size off v 1) s = exec (.enca .be size off v 1) s ∧
    exec (.deca .le size off 1) s = exec (.deca .be size off 1) s

/-- 42_codec_laws R140: endianness swap on the bit path, for either `BITNUM`. -/
def Obligations.EndiannessSwapOnTheBitPath : Prop :=
  ∀ (size off : Nat) (bit : Fin 8) (v : Value) (n : Nat) (s : State), size ≤ s.cfg.memLen → n ≤ 64 →
    startBit off bit + n ≤ 8 * size →
    (∃ t u, exec (.encb .le size off bit v n) s = .next t ∧ exec (.decb .be size off bit n) t = .next u ∧
      u.rsp.bind (·.result) = some (BitVec.ofNat 64 (revBits n (lowBits n v.toNat)))) ∧
    ∃ t u, exec (.encb .be size off bit v n) s = .next t ∧ exec (.decb .le size off bit n) t = .next u ∧
      u.rsp.bind (·.result) = some (BitVec.ofNat 64 (revBits n (lowBits n v.toNat)))

/-- 42_codec_laws R134: a sub-byte field leaves the other bits of its byte unmodified, and every other byte; with LSB0 a
field at bit_offset = 3, n = 2 changes only the bits of weight 8 and 16. -/
def Obligations.PartialBytePreservation : Prop :=
  (∀ (e : Endian) (size off : Nat) (bit : Fin 8) (v : Value) (n : Nat) (s : State), size ≤ s.cfg.memLen →
    bit.val + n ≤ 8 →
    ∃ t, exec (.encb e size off bit v n) s = .next t ∧
      (∀ a, a ≠ off → Memory.read t.buf a = Memory.read s.buf a) ∧
      ∀ k, k < 8 → k < bit.val ∨ bit.val + n ≤ k →
        getBit s.cfg.bitNum (Memory.read t.buf off) k = getBit s.cfg.bitNum (Memory.read s.buf off) k) ∧
  ∀ (e : Endian) (size off : Nat) (v : Value) (s : State), size ≤ s.cfg.memLen → s.cfg.bitNum = .lsb0 →
    ∃ t, exec (.encb e size off 3 v 2) s = .next t ∧
      (∀ a, a ≠ off → Memory.read t.buf a = Memory.read s.buf a) ∧
      Memory.read t.buf off &&& 0xE7#8 = Memory.read s.buf off &&& 0xE7#8

/-- 42_codec_laws R141: a decode leaves the buffer unchanged and returns the same value every time; an encode executed
twice leaves the buffer as once; encoding back what was just decoded changes nothing, in range or not. -/
def Obligations.PurityAndIdempotence : Prop :=
  (∀ (i : Instr) (s : State), i.bufferSize ≤ s.cfg.memLen → isEncode i = false →
    ∃ t u, exec i s = .next t ∧ exec i t = .next u ∧ t.buf = s.buf ∧ u.rsp = t.rsp) ∧
  (∀ (i : Instr) (s : State), i.bufferSize ≤ s.cfg.memLen → isEncode i = true →
    ∃ t u, exec i s = .next t ∧ exec i t = .next u ∧
      ∀ a, Memory.read u.buf a = Memory.read t.buf a) ∧
  (∀ (e : Endian) (size off n : Nat) (s : State), size ≤ s.cfg.memLen →
    ∃ t r u, exec (.deca e size off n) s = .next t ∧ t.rsp.bind (·.result) = some r ∧
      exec (.enca e size off r n) t = .next u ∧ ∀ a, Memory.read u.buf a = Memory.read s.buf a) ∧
  ∀ (e : Endian) (size off : Nat) (bit : Fin 8) (n : Nat) (s : State), size ≤ s.cfg.memLen →
    ∃ t r u, exec (.decb e size off bit n) s = .next t ∧ t.rsp.bind (·.result) = some r ∧
      exec (.encb e size off bit r n) t = .next u ∧ ∀ a, Memory.read u.buf a = Memory.read s.buf a

/-- 42_codec_laws R142: round trip under overrun on the bit path. -/
def Obligations.RoundTripUnderOverrun : Prop :=
  ∀ (size off : Nat) (bit : Fin 8) (v : Value) (n : Nat) (s : State), size ≤ s.cfg.memLen → n ≤ 64 →
    ∀ m, m = min n (8 * size - startBit off bit) →
      (∃ t u, exec (.encb .le size off bit v n) s = .next t ∧ exec (.decb .le size off bit n) t = .next u ∧
        u.rsp.bind (·.result) = some (BitVec.ofNat 64 (lowBits m v.toNat))) ∧
      ∃ t u, exec (.encb .be size off bit v n) s = .next t ∧ exec (.decb .be size off bit n) t = .next u ∧
        u.rsp.bind (·.result) = some (BitVec.ofNat 64 (lowBits n v.toNat - lowBits (n - m) v.toNat))

/-- 42_codec_laws R136, `BITNUM` = LSB0: the bit path is insert and extract on the little-endian integer of the buffer.
The rule's `L' = L − f·2^s + v·2^s` is written without the subtraction. -/
def Obligations.ClosedFormsUnderLsb0 : Prop :=
  ∀ (size off : Nat) (bit : Fin 8) (v : Value) (n : Nat) (s : State), size ≤ s.cfg.memLen → n ≤ 64 →
    startBit off bit + n ≤ 8 * size → s.cfg.bitNum = .lsb0 →
    ∀ f, f = leInt s.buf size / 2 ^ startBit off bit % 2 ^ n →
      (∃ t, exec (.decb .le size off bit n) s = .next t ∧
        t.rsp.bind (·.result) = some (BitVec.ofNat 64 f)) ∧
      (∃ t, exec (.decb .be size off bit n) s = .next t ∧
        t.rsp.bind (·.result) = some (BitVec.ofNat 64 (revBits n f))) ∧
      (∃ t, exec (.encb .le size off bit v n) s = .next t ∧
        leInt t.buf size + f * 2 ^ startBit off bit =
          leInt s.buf size + lowBits n v.toNat * 2 ^ startBit off bit) ∧
      ∃ t, exec (.encb .be size off bit v n) s = .next t ∧
        leInt t.buf size + f * 2 ^ startBit off bit =
          leInt s.buf size + revBits n (lowBits n v.toNat) * 2 ^ startBit off bit

/-- 42_codec_laws R136, `BITNUM` = MSB0: the bit path is insert and extract on the big-endian integer of the buffer. -/
def Obligations.ClosedFormsUnderMsb0 : Prop :=
  ∀ (size off : Nat) (bit : Fin 8) (v : Value) (n : Nat) (s : State), size ≤ s.cfg.memLen → n ≤ 64 →
    startBit off bit + n ≤ 8 * size → s.cfg.bitNum = .msb0 →
    ∀ k, k = 8 * size - startBit off bit - n →
    ∀ g, g = beInt s.buf size / 2 ^ k % 2 ^ n →
      (∃ t, exec (.decb .be size off bit n) s = .next t ∧
        t.rsp.bind (·.result) = some (BitVec.ofNat 64 g)) ∧
      (∃ t, exec (.decb .le size off bit n) s = .next t ∧
        t.rsp.bind (·.result) = some (BitVec.ofNat 64 (revBits n g))) ∧
      (∃ t, exec (.encb .be size off bit v n) s = .next t ∧
        beInt t.buf size + g * 2 ^ k = beInt s.buf size + lowBits n v.toNat * 2 ^ k) ∧
      ∃ t, exec (.encb .le size off bit v n) s = .next t ∧
        beInt t.buf size + g * 2 ^ k = beInt s.buf size + revBits n (lowBits n v.toNat) * 2 ^ k

/-- 42_codec_laws R137, R139 (first halves): at byte boundaries the bit path and the aligned path agree, for LE when
`BITNUM` = LSB0 and for BE when `BITNUM` = MSB0. -/
def Obligations.PathsAgreeAtByteBoundaries : Prop :=
  ∀ (e : Endian) (size off : Nat) (v : Value) (q : Nat) (s : State), size ≤ s.cfg.memLen → q ≤ 8 →
    off + q ≤ size → e = (match s.cfg.bitNum with | .lsb0 => .le | .msb0 => .be) →
    (∃ t u, exec (.decb e size off 0 (8 * q)) s = .next t ∧ exec (.deca e size off q) s = .next u ∧
      t.rsp.bind (·.result) = u.rsp.bind (·.result)) ∧
    ∃ t u, exec (.encb e size off 0 v (8 * q)) s = .next t ∧ exec (.enca e size off v q) s = .next u ∧
      ∀ a, Memory.read t.buf a = Memory.read u.buf a

/-- 42_codec_laws R138, R139 (second halves): under the other order the bit path is the aligned path with the bits of each
byte reversed. -/
def Obligations.PathsDifferByBitReversal : Prop :=
  ∀ (e : Endian) (size off : Nat) (v : Value) (q : Nat) (s : State), size ≤ s.cfg.memLen → q ≤ 8 →
    off + q ≤ size → e = (match s.cfg.bitNum with | .lsb0 => .be | .msb0 => .le) →
    (∃ t u r, exec (.decb e size off 0 (8 * q)) s = .next t ∧ exec (.deca e size off q) s = .next u ∧
      u.rsp.bind (·.result) = some r ∧
      t.rsp.bind (·.result) = some (BitVec.ofNat 64 (revBitsInBytes q r.toNat))) ∧
    ∃ t u, exec (.encb e size off 0 v (8 * q)) s = .next t ∧ exec (.enca e size off v q) s = .next u ∧
      ∀ a, off ≤ a → a < off + q →
        (Memory.read t.buf a).toNat = revBits 8 (Memory.read u.buf a).toNat

/-- 20_memory R51: the result of a decode depends on no buffer bit outside the field span, and an encode leaves every
buffer bit outside the field span with the value it had. -/
def Obligations.DecodeDependsOnTheFieldOnly : Prop :=
  (∀ (e : Endian) (size off n : Nat) (s s' : State), size ≤ s.cfg.memLen → s'.cfg = s.cfg →
    (∀ a, off ≤ a → a < off + n → Memory.read s'.buf a = Memory.read s.buf a) →
    ∃ t t', exec (.deca e size off n) s = .next t ∧ exec (.deca e size off n) s' = .next t' ∧
      t'.rsp = t.rsp) ∧
  (∀ (e : Endian) (size off : Nat) (bit : Fin 8) (n : Nat) (s s' : State), size ≤ s.cfg.memLen →
    s'.cfg = s.cfg →
    (∀ pos, startBit off bit ≤ pos → pos < startBit off bit + n →
      bufBit s.cfg.bitNum s'.buf pos = bufBit s.cfg.bitNum s.buf pos) →
    ∃ t t', exec (.decb e size off bit n) s = .next t ∧ exec (.decb e size off bit n) s' = .next t' ∧
      t'.rsp = t.rsp) ∧
  (∀ (e : Endian) (size off : Nat) (v : Value) (n : Nat) (s : State), size ≤ s.cfg.memLen →
    ∃ t, exec (.enca e size off v n) s = .next t ∧
      ∀ a, a < off ∨ off + n ≤ a → Memory.read t.buf a = Memory.read s.buf a) ∧
  ∀ (e : Endian) (size off : Nat) (bit : Fin 8) (v : Value) (n : Nat) (s : State), size ≤ s.cfg.memLen →
    ∃ t, exec (.encb e size off bit v n) s = .next t ∧
      ∀ pos, pos < startBit off bit ∨ startBit off bit + n ≤ pos →
        bufBit s.cfg.bitNum t.buf pos = bufBit s.cfg.bitNum s.buf pos

/-! ## Several instances on one buffer -/

/-- 20_memory R39, R40, R45; 70_reset R186: an instance that runs alone, one byte access at a time, completes after as
many turns as its command makes accesses (one turn when it makes none), and leaves the buffer and delivers the
response that the one atomic step leaves and delivers. The number of accesses is linear in the count cut at the
limit. These parts are the model's inferences: that the command completes in the turn of its last access and then
shows its response (log entry 13), that one without an access completes in one turn, that the result is what the
instance has gathered, and that the loop index runs over the in-range bits only (log entry 18). -/
def Obligations.AccessByAccessRefinesTheAtomicStep : Prop :=
  ∀ (i : Instr) (s : State) (x : Codec), i.bufferSize ≤ s.cfg.memLen →
    ∃ (t : State) (r : Response), exec i (s.withParams x.params) = .next t ∧ t.rsp = some r ∧
      Shared.run (List.replicate (max 1 (accessCount i)) 0) ⟨s.cfg.memLen, s.buf, [x.take i]⟩ =
        ⟨s.cfg.memLen, t.buf, [{ x with command := none, rsp := some r, given := x.given ++ [r] }]⟩ ∧
      accessCount i ≤
        match i with
        | .enca .. => min i.count 8
        | .deca .. => min i.count 8
        | .encb .. => 2 * min i.count 64
        | .decb .. => min i.count 64

/-- 20_memory R46: when two commands keep the contract, every interleaving of their byte accesses that completes both
leaves the buffer and delivers the responses of running one command after the other, whatever the parameters of
the two instances. These parts are the model's: that one command is one step of the base model (log entry 11), that a
command completes in the turn of its last access (log entry 13), that one without an access completes in one
turn, that the result is what the instance has gathered, and that the loop index runs over the in-range bits only
(log entry 18), and that instances may differ in their parameters (log entry 22). -/
def Obligations.CommandsThatKeepTheContractSerialize : Prop :=
  ∀ (i j : Instr) (s : State) (p q : BlockParams), i.bufferSize ≤ s.cfg.memLen → j.bufferSize ≤ s.cfg.memLen →
    keepsContract i j = true → ∀ (schedule : List Nat) (y : Shared),
      y = Shared.run schedule ⟨s.cfg.memLen, s.buf, [(Codec.reset p).take i, (Codec.reset q).take j]⟩ →
      y.allIdle = true →
        ∃ t u, exec i (s.withParams p) = .next t ∧ exec j (t.withParams q) = .next u ∧
          (∀ a, Memory.read y.mem a = Memory.read u.buf a) ∧
          y.codecs.map (·.given) = [t.rsp.toList, u.rsp.toList]

/-- 20_memory R41, R45, R46 and the race of 95_test_vectors: two ENCB that share a byte and no bit, under LSB0. Every
complete interleaving leaves 0x03, 0x02 or 0x01, and each of the three occurs. That an interleaving is complete with
the turns of the last accesses is the model's inference (log entry 13). -/
def Obligations.RaceHasExactlyThreeOutcomes : Prop :=
  ∀ y₀ : Shared,
    y₀ = ⟨1, [], [(Codec.reset ⟨.lsb0, 32, true⟩).take (.encb .le 1 0 0 1 1),
      (Codec.reset ⟨.lsb0, 32, true⟩).take (.encb .le 1 0 1 1 1)]⟩ →
    (∀ schedule, (Shared.run schedule y₀).allIdle = true →
      Memory.read (Shared.run schedule y₀).mem 0 ∈ [0x03#8, 0x02#8, 0x01#8]) ∧
    ∀ b ∈ [0x03#8, 0x02#8, 0x01#8], ∃ schedule, (Shared.run schedule y₀).allIdle = true ∧
      Memory.read (Shared.run schedule y₀).mem 0 = b

/-- 30_encoding R64: a command that is presented to an instance whose command has not completed is not taken; one that is
ready takes the command with its operands as they are then, on the ports or as a descriptor. What spells no
command is refused whether the instance is ready or not (R68). These parts are the model's choice (log entry 6):
that port values which the ports cannot carry are refused, and that a descriptor is a command under every `OFFW`; so
is that an older response is gone from the ports when a command is taken (log entry 13). -/
def Obligations.OneCommandAtATime : Prop :=
  ∀ (y : Shared) (k : Nat) (x : Codec), y.codecs[k]? = some x →
    (x.cmdReady = false →
      (∀ p, portsFit x.params.offW p = true → y.event (.issue k p) = .next y) ∧
      ∀ w i, decode w = .ok i → y.event (.issueDescriptor k w) = .next y) ∧
    (∀ p, portsFit x.params.offW p = false → y.event (.issue k p) = .refused .notPresentable) ∧
    (∀ w why, decode w = .error why → y.event (.issueDescriptor k w) = .refused (.invalidDescriptor why)) ∧
    (x.cmdReady = true → ∀ (i : Instr) (ev : SharedEvent), i.bufferSize ≤ y.memLen →
      ((∃ p, ev = .issue k p ∧ portsFit x.params.offW p = true ∧ decodePorts p = i) ∨
        ∃ w, ev = .issueDescriptor k w ∧ decode w = .ok i) →
      ∃ y' x', y.event ev = .next y' ∧ y'.mem = y.mem ∧ y'.codecs[k]? = some x' ∧
        x'.command = some { cmd := i, idx := 0, held := none, acc := 0 } ∧ x'.cmdReady = false ∧
        x'.rspValid = false)

/-- 60_exceptions R167, 70_reset R175, R176: every instance is ready after launch and after its reset, with no response
pending and the buffer untouched; reset during its command is no move of the host (log entry 12). -/
def Obligations.InstancesAreReadyAfterReset : Prop :=
  (∀ (bytes : List Byte) (params : List BlockParams), (Shared.launch bytes params).allIdle = true ∧
    (∀ x ∈ (Shared.launch bytes params).codecs, x.rspValid = false) ∧ (Shared.launch bytes params).Inv) ∧
  ∀ (y : Shared) (k : Nat) (x : Codec), y.codecs[k]? = some x →
    (x.cmdReady = true → ∃ y' x', y.event (.reset k) = .next y' ∧ y'.mem = y.mem ∧ y'.codecs[k]? = some x' ∧
      x'.cmdReady = true ∧ x'.rspValid = false ∧ x'.params = x.params) ∧
    (x.cmdReady = false → y.event (.reset k) = .refused .resetDuringCommand)

/-- 60_exceptions R167, R153, R154; 30_encoding R63, R64: the own response interface of an instance. The turn that makes
the last access of its command completes it: `cmd_ready` and `rsp_valid` are 1, a decode shows its result, and
an instance with a status output shows the condition class of its command; every other turn shows no response.
These parts are the model's inferences: that a command completes in the turn of its last access and shows its
response until the instance's next event (log entry 13), that one without an access completes in one turn, and
that the result is what the instance has gathered in `acc` (log entry 18). -/
def Obligations.InstanceRespondsOnCompletion : Prop :=
  ∀ (y : Shared) (k : Nat) (x : Codec) (f g : InFlight) (m : Memory), y.codecs[k]? = some x → x.command = some f →
    f.access x.params.bitNum y.mem = (g, m) →
    ∃ x', (y.advance k).codecs[k]? = some x' ∧ (y.advance k).mem = m ∧ x'.params = x.params ∧
      (g.done = true → x'.cmdReady = true ∧ x'.rspValid = true ∧
        x'.rspValue = (if isEncode f.cmd then none else some (BitVec.ofNat 64 g.acc)) ∧
        x'.rspStatus = (if x.params.hasStatus then some (statusCode (condClass f.cmd)) else none) ∧
        x'.given = x.given ++ x'.rsp.toList) ∧
      (g.done = false → x'.cmdReady = false ∧ x'.rspValid = false ∧ x'.command = some g ∧ x'.given = x.given)

/-- 60_exceptions R167: instances share no state but the buffer. An event that is about one instance leaves every other
as it is; only a turn and a host write change the buffer; and a turn of an instance depends on that instance and
the buffer alone. -/
def Obligations.InstancesShareOnlyTheBuffer : Prop :=
  (∀ (y y' : Shared) (ev : SharedEvent), y.event ev = .next y' → y'.memLen = y.memLen ∧
    (∀ k, ev.target ≠ some k → y'.codecs[k]? = y.codecs[k]?) ∧
    ((∀ k, ev ≠ .advance k) → (∀ a b, ev ≠ .hostWrite a b) → y'.mem = y.mem)) ∧
  ∀ (y z : Shared) (k : Nat), y.mem = z.mem → y.codecs[k]? = z.codecs[k]? →
    (y.advance k).mem = (z.advance k).mem ∧ (y.advance k).codecs[k]? = (z.advance k).codecs[k]?

/-- 20_memory R31, R39; 10_state R10, R14: every event of several instances on one buffer keeps their invariant, in every
state that has it. -/
def Obligations.SharedEventsKeepTheInvariant : Prop :=
  ∀ (y y' : Shared) (ev : SharedEvent), y.Inv → y.event ev = .next y' → y'.Inv
end

