-- ==== Sys2Proof/Laws/Memory.lean ====
section
/-! SUPPORT. The laws of the buffer memory: a byte reads back as written, every other byte is unchanged, every
operation keeps the canonical form, and two canonical memories that read the same are the same data. -/

namespace Sys2Proof.Machine

@[simp] theorem Memory.read_nil (x : Nat) : Memory.read [] x = unlistedByte := rfl

theorem Memory.read_erase (m : Memory) (a x : Nat) :
    Memory.read (Memory.erase m a) x = if x = a then unlistedByte else Memory.read m x := by
  induction m with
  | nil => simp [Memory.erase]
  | cons c rest ih =>
    by_cases hc : c.1 = a
    · have h : Memory.erase (c :: rest) a = Memory.erase rest a := by simp [Memory.erase, hc]
      rw [h, ih]
      by_cases hx : x = a
      · simp [hx]
      · have : ¬ c.1 = x := fun e => hx (e.symm.trans hc)
        simp [hx, Memory.read, this]
    · have h : Memory.erase (c :: rest) a = c :: Memory.erase rest a := by simp [Memory.erase, hc]
      rw [h]
      by_cases hx : c.1 = x
      · have : ¬ x = a := fun e => hc (hx.trans e)
        simp [Memory.read, hx, this]
      · simp only [Memory.read, if_neg hx, ih]

theorem Memory.read_insert (m : Memory) (a : Nat) (b : Byte) (x : Nat)
    (h : Memory.read m a = unlistedByte ∧ ∀ c ∈ m, c.1 ≠ a) :
    Memory.read (Memory.insert m a b) x = if x = a then b else Memory.read m x := by
  induction m with
  | nil =>
    by_cases hx : x = a
    · simp [Memory.insert, Memory.read, hx]
    · simp [Memory.insert, Memory.read, hx, Ne.symm hx]
  | cons c rest ih =>
    have hc : ¬ c.1 = a := h.2 c (by simp)
    have ih := ih ⟨by simpa [Memory.read, hc] using h.1, fun d hd => h.2 d (by simp [hd])⟩
    unfold Memory.insert
    split
    · by_cases hx : x = a
      · simp [Memory.read, hx]
      · simp [Memory.read, hx, Ne.symm hx]
    · by_cases hx : c.1 = x
      · have : ¬ x = a := fun e => hc (hx.trans e)
        simp [Memory.read, hx, this]
      · simp only [Memory.read, if_neg hx, ih]

theorem Memory.erase_ne (m : Memory) (a : Nat) : ∀ c ∈ Memory.erase m a, c.1 ≠ a := by
  intro c hc
  simpa using (List.mem_filter.mp hc).2

/-- Reading after a write: the byte written at its index, what was there before everywhere else. -/
@[simp] theorem Memory.read_write (m : Memory) (a : Nat) (b : Byte) (x : Nat) :
    Memory.read (Memory.write m a b) x = if x = a then b else Memory.read m x := by
  unfold Memory.write
  split
  · next h => rw [Memory.read_erase, h]
  · rw [Memory.read_insert _ _ _ _ ⟨by simp [Memory.read_erase], Memory.erase_ne m a⟩]
    by_cases hx : x = a <;> simp [hx, Memory.read_erase]

theorem Memory.wfFrom_mono {lo lo' : Nat} (h : lo' ≤ lo) :
    ∀ {m : Memory}, Memory.wfFrom lo m = true → Memory.wfFrom lo' m = true
  | [], _ => rfl
  | c :: rest, hm => by
    simp only [Memory.wfFrom, Bool.and_eq_true, decide_eq_true_eq] at hm ⊢
    exact ⟨⟨h.trans hm.1.1, hm.1.2⟩, hm.2⟩

theorem Memory.wfFrom_erase (a : Nat) :
    ∀ {lo : Nat} {m : Memory}, Memory.wfFrom lo m = true → Memory.wfFrom lo (Memory.erase m a) = true
  | _, [], _ => rfl
  | lo, c :: rest, hm => by
    simp only [Memory.wfFrom, Bool.and_eq_true, decide_eq_true_eq] at hm
    have ih := Memory.wfFrom_erase a hm.2
    by_cases hc : c.1 = a
    · have h : Memory.erase (c :: rest) a = Memory.erase rest a := by simp [Memory.erase, hc]
      rw [h]
      exact Memory.wfFrom_mono (by omega) ih
    · have h : Memory.erase (c :: rest) a = c :: Memory.erase rest a := by simp [Memory.erase, hc]
      rw [h]
      simp only [Memory.wfFrom, Bool.and_eq_true, decide_eq_true_eq]
      exact ⟨hm.1, ih⟩

theorem Memory.wfFrom_insert (a : Nat) {b : Byte} (hb : b ≠ unlistedByte) :
    ∀ {lo : Nat} {m : Memory}, Memory.wfFrom lo m = true → lo ≤ a → (∀ c ∈ m, c.1 ≠ a) →
      Memory.wfFrom lo (Memory.insert m a b) = true
  | _, [], _, hlo, _ => by simp [Memory.insert, Memory.wfFrom, hlo, hb]
  | lo, c :: rest, hm, hlo, hne => by
    have hm' := hm
    simp only [Memory.wfFrom, Bool.and_eq_true, decide_eq_true_eq] at hm
    have hc : c.1 ≠ a := hne c (by simp)
    unfold Memory.insert
    split
    · simp only [Memory.wfFrom, Bool.and_eq_true, decide_eq_true_eq]
      exact ⟨⟨hlo, hb⟩, ⟨by omega, hm.1.2⟩, hm.2⟩
    · simp only [Memory.wfFrom, Bool.and_eq_true, decide_eq_true_eq]
      exact ⟨hm.1, Memory.wfFrom_insert a hb hm.2 (by omega) fun d hd => hne d (by simp [hd])⟩

/-- A write keeps the canonical form. -/
theorem Memory.wf_write {m : Memory} (a : Nat) (b : Byte) (h : Memory.wf m = true) :
    Memory.wf (Memory.write m a b) = true := by
  unfold Memory.write Memory.wf
  split
  · exact Memory.wfFrom_erase a h
  · next hb =>
    exact Memory.wfFrom_insert a hb (Memory.wfFrom_erase a h) (Nat.zero_le a) (Memory.erase_ne m a)

theorem Memory.mem_insert {a : Nat} {b : Byte} {d : Host.Cell} :
    ∀ {m : Memory}, d ∈ Memory.insert m a b → d = (a, b) ∨ d ∈ m
  | [], h => by simpa [Memory.insert] using h
  | c :: rest, h => by
    unfold Memory.insert at h
    split at h
    · simpa using h
    · rcases List.mem_cons.mp h with h | h
      · simp [h]
      · rcases Memory.mem_insert h with h | h <;> simp [h]

/-- A write inside the buffer keeps every listed address inside it. -/
theorem Memory.below_write {n a : Nat} {m : Memory} (b : Byte) (ha : a < n) (h : Memory.below n m = true) :
    Memory.below n (Memory.write m a b) = true := by
  have he : Memory.below n (Memory.erase m a) = true := by
    simp only [Memory.below, List.all_eq_true, decide_eq_true_eq] at h ⊢
    exact fun c hc => h c (List.mem_filter.mp hc).1
  unfold Memory.write
  split
  · exact he
  · simp only [Memory.below, List.all_eq_true, decide_eq_true_eq] at he ⊢
    intro c hc
    rcases Memory.mem_insert hc with hc | hc
    · simpa [hc] using ha
    · exact he c hc

theorem Memory.read_of_wfFrom {lo x : Nat} (hx : x < lo) :
    ∀ {m : Memory}, Memory.wfFrom lo m = true → Memory.read m x = unlistedByte
  | [], _ => rfl
  | c :: rest, hm => by
    simp only [Memory.wfFrom, Bool.and_eq_true, decide_eq_true_eq] at hm
    have : ¬ c.1 = x := by omega
    simp only [Memory.read, if_neg this]
    exact Memory.read_of_wfFrom (by omega) hm.2

/-- Equal memories are equal data: two canonical memories that read the same everywhere are the same list. -/
theorem Memory.ext_of_wf {m₁ m₂ : Memory} (h₁ : Memory.wf m₁ = true) (h₂ : Memory.wf m₂ = true)
    (h : ∀ x, Memory.read m₁ x = Memory.read m₂ x) : m₁ = m₂ := by
  suffices ∀ lo, Memory.wfFrom lo m₁ = true → Memory.wfFrom lo m₂ = true → m₁ = m₂ from this 0 h₁ h₂
  clear h₁ h₂
  induction m₁ generalizing m₂ with
  | nil =>
    intro lo _ h₂
    cases m₂ with
    | nil => rfl
    | cons d rest =>
      simp only [Memory.wfFrom, Bool.and_eq_true, decide_eq_true_eq] at h₂
      exact absurd (by simpa [Memory.read] using (h d.1).symm) h₂.1.2
  | cons c rest ih =>
    intro lo h₁ h₂
    simp only [Memory.wfFrom, Bool.and_eq_true, decide_eq_true_eq] at h₁
    cases m₂ with
    | nil => exact absurd (by simpa [Memory.read] using h c.1) h₁.1.2
    | cons d rest' =>
      simp only [Memory.wfFrom, Bool.and_eq_true, decide_eq_true_eq] at h₂
      have haddr : c.1 = d.1 := by
        by_contra hne
        rcases Nat.lt_or_gt_of_ne hne with hlt | hgt
        · have := h c.1
          have hz : Memory.read (d :: rest') c.1 = unlistedByte := by
            have : ¬ d.1 = c.1 := by omega
            simp only [Memory.read, if_neg this]
            exact Memory.read_of_wfFrom (by omega) h₂.2
          rw [hz] at this
          exact h₁.1.2 (by simpa [Memory.read] using this)
        · have := h d.1
          have hz : Memory.read (c :: rest) d.1 = unlistedByte := by
            have : ¬ c.1 = d.1 := by omega
            simp only [Memory.read, if_neg this]
            exact Memory.read_of_wfFrom (by omega) h₁.2
          rw [hz] at this
          exact h₂.1.2 (by simpa [Memory.read] using this.symm)
      have hdata : c.2 = d.2 := by
        have := h c.1
        simpa [Memory.read, haddr] using this
      have hcd : c = d := Prod.ext haddr hdata
      subst hcd
      congr 1
      refine ih (fun x => ?_) (c.1 + 1) h₁.2 h₂.2
      by_cases hx : x < c.1 + 1
      · rw [Memory.read_of_wfFrom hx h₁.2, Memory.read_of_wfFrom hx h₂.2]
      · have hne : ¬ c.1 = x := by omega
        simpa [Memory.read, hne] using h x

theorem Memory.ofBytesFrom_wf (bytes : List Byte) :
    ∀ {lo a : Nat}, lo ≤ a → Memory.wfFrom lo (Memory.ofBytesFrom a bytes) = true := by
  induction bytes with
  | nil => intro lo a _; rfl
  | cons b rest ih =>
    intro lo a h
    unfold Memory.ofBytesFrom
    split
    · exact ih (by omega)
    · next hb => simpa [Memory.wfFrom, h, hb] using ih (le_refl (a + 1))

/-- The launch buffer's memory is canonical. -/
theorem Memory.wf_ofBytes (bytes : List Byte) : Memory.wf (Memory.ofBytesFrom 0 bytes) = true :=
  Memory.ofBytesFrom_wf bytes (le_refl 0)

theorem Memory.ofBytesFrom_below (bytes : List Byte) :
    ∀ {a n : Nat}, a + bytes.length ≤ n → Memory.below n (Memory.ofBytesFrom a bytes) = true := by
  induction bytes with
  | nil => intro a n _; rfl
  | cons b rest ih =>
    intro a n h
    have h' : a + 1 + rest.length ≤ n := by simp only [List.length_cons] at h; omega
    have ha : a < n := by omega
    have hr := ih h'
    unfold Memory.ofBytesFrom
    split
    · exact hr
    · simpa [Memory.below, ha] using hr

/-- The launch buffer lies inside `[0, MEMLEN)`. -/
theorem Memory.below_ofBytes (bytes : List Byte) :
    Memory.below bytes.length (Memory.ofBytesFrom 0 bytes) = true :=
  Memory.ofBytesFrom_below bytes (by omega)

theorem State.reset_buf_wf : Memory.wf State.reset.buf = true := rfl

end Sys2Proof.Machine
end

