-- ==== Sys2Proof/Laws/State.lean ====
section
/-! SUPPORT. One lemma per field per update of the state, each true by rfl. -/

namespace Sys2Proof.Machine

variable (s : State) (a : Nat) (b : Byte) (c : CondClass) (r : Value) (rest : List HostMove) (w : BitVec 160)

@[simp] theorem State.memRead_byte : (s.memRead a).1 = Memory.read s.buf a := rfl
@[simp] theorem State.memRead_cfg : (s.memRead a).2.cfg = s.cfg := rfl
@[simp] theorem State.memRead_buf : (s.memRead a).2.buf = s.buf := rfl
@[simp] theorem State.memRead_host : (s.memRead a).2.host = s.host := rfl
@[simp] theorem State.memRead_rsp : (s.memRead a).2.rsp = s.rsp := rfl
@[simp] theorem State.memRead_bus : (s.memRead a).2.bus = s.bus ++ [.read a (Memory.read s.buf a)] := rfl
@[simp] theorem State.memRead_results : (s.memRead a).2.results = s.results := rfl
@[simp] theorem State.memRead_tick : (s.memRead a).2.tick = s.tick := rfl

@[simp] theorem State.memWrite_cfg : (s.memWrite a b).cfg = s.cfg := rfl
@[simp] theorem State.memWrite_buf : (s.memWrite a b).buf = Memory.write s.buf a b := rfl
@[simp] theorem State.memWrite_host : (s.memWrite a b).host = s.host := rfl
@[simp] theorem State.memWrite_rsp : (s.memWrite a b).rsp = s.rsp := rfl
@[simp] theorem State.memWrite_bus : (s.memWrite a b).bus = s.bus ++ [.write a b] := rfl
@[simp] theorem State.memWrite_results : (s.memWrite a b).results = s.results := rfl
@[simp] theorem State.memWrite_tick : (s.memWrite a b).tick = s.tick := rfl

@[simp] theorem State.completeEncode_cfg : (s.completeEncode c).cfg = s.cfg := rfl
@[simp] theorem State.completeEncode_buf : (s.completeEncode c).buf = s.buf := rfl
@[simp] theorem State.completeEncode_host : (s.completeEncode c).host = s.host := rfl
@[simp] theorem State.completeEncode_rsp :
    (s.completeEncode c).rsp = some { result := none, status := c } := rfl
@[simp] theorem State.completeEncode_bus : (s.completeEncode c).bus = s.bus := rfl
@[simp] theorem State.completeEncode_results : (s.completeEncode c).results = s.results := rfl
@[simp] theorem State.completeEncode_tick : (s.completeEncode c).tick = s.tick := rfl

@[simp] theorem State.completeDecode_cfg : (s.completeDecode c r).cfg = s.cfg := rfl
@[simp] theorem State.completeDecode_buf : (s.completeDecode c r).buf = s.buf := rfl
@[simp] theorem State.completeDecode_host : (s.completeDecode c r).host = s.host := rfl
@[simp] theorem State.completeDecode_rsp :
    (s.completeDecode c r).rsp = some { result := some r, status := c } := rfl
@[simp] theorem State.completeDecode_bus : (s.completeDecode c r).bus = s.bus := rfl
@[simp] theorem State.completeDecode_results : (s.completeDecode c r).results = s.results ++ [r] := rfl
@[simp] theorem State.completeDecode_tick : (s.completeDecode c r).tick = s.tick := rfl

@[simp] theorem State.begin_cfg : (s.begin rest).cfg = s.cfg := rfl
@[simp] theorem State.begin_buf : (s.begin rest).buf = s.buf := rfl
@[simp] theorem State.begin_host : (s.begin rest).host = rest := rfl
@[simp] theorem State.begin_rsp : (s.begin rest).rsp = none := rfl
@[simp] theorem State.begin_bus : (s.begin rest).bus = [] := rfl
@[simp] theorem State.begin_results : (s.begin rest).results = s.results := rfl
@[simp] theorem State.begin_tick : (s.begin rest).tick = s.tick + 1 := rfl

@[simp] theorem presentDescriptor_cfg : (presentDescriptor w s).cfg = s.cfg := rfl
@[simp] theorem presentDescriptor_buf : (presentDescriptor w s).buf = s.buf := rfl
@[simp] theorem presentDescriptor_host : (presentDescriptor w s).host = .descriptor w :: s.host := rfl
@[simp] theorem presentDescriptor_rsp : (presentDescriptor w s).rsp = s.rsp := rfl
@[simp] theorem presentDescriptor_bus : (presentDescriptor w s).bus = s.bus := rfl
@[simp] theorem presentDescriptor_results : (presentDescriptor w s).results = s.results := rfl
@[simp] theorem presentDescriptor_tick : (presentDescriptor w s).tick = s.tick := rfl

@[simp] theorem Access.addr_read : (Access.read a b).addr = a := rfl
@[simp] theorem Access.addr_write : (Access.write a b).addr = a := rfl
@[simp] theorem Access.isWrite_read : (Access.read a b).isWrite = false := rfl
@[simp] theorem Access.isWrite_write : (Access.write a b).isWrite = true := rfl

end Sys2Proof.Machine
end

