-- ==== Sys2Proof/Laws/Ops.lean ====
section
/-! SUPPORT. For each shared operation, once, everything it can do. -/

namespace Sys2Proof.Machine

@[simp] theorem ascend_zero {α : Type} (body : Nat → α → α) (x : α) : ascend 0 body x = x := rfl

@[simp] theorem ascend_succ {α : Type} (n : Nat) (body : Nat → α → α) (x : α) :
    ascend (n + 1) body x = body n (ascend n body x) := rfl

/-- The rule of a loop: what holds before it and is carried by each of its turns holds after it. -/
theorem ascend_rule {α : Type} (P : Nat → α → Prop) {n : Nat} {body : Nat → α → α} {x : α} (h₀ : P 0 x)
    (hstep : ∀ i y, i < n → P i y → P (i + 1) (body i y)) : P n (ascend n body x) := by
  induction n with
  | zero => exact h₀
  | succ n ih => exact hstep n _ (Nat.lt_succ_self n) (ih fun i y hi => hstep i y (by omega))

/-- Two loops whose bodies agree below the bound agree. -/
theorem ascend_congr {α : Type} {n : Nat} {f g : Nat → α → α} (x : α) (h : ∀ i y, i < n → f i y = g i y) :
    ascend n f x = ascend n g x := by
  induction n with
  | zero => rfl
  | succ n ih =>
    rw [ascend_succ, ascend_succ, ih fun i y hi => h i y (by omega), h n _ (Nat.lt_succ_self n)]

/-- 20_memory R31: the only way a command completes, and the only way it does not. -/
theorem State.requireBuffer_cases (s : State) (size : Nat) (t : State) :
    (size ≤ s.cfg.memLen ∧ s.requireBuffer size t = .next t) ∨
      (s.cfg.memLen < size ∧ s.requireBuffer size t = .refused .bufferTooLarge) := by
  unfold State.requireBuffer
  by_cases h : size ≤ s.cfg.memLen
  · exact .inl ⟨h, if_pos h⟩
  · exact .inr ⟨by omega, if_neg h⟩

theorem State.requireBuffer_of_le {s : State} {size : Nat} (h : size ≤ s.cfg.memLen) (t : State) :
    s.requireBuffer size t = .next t := if_pos h

theorem State.requireBuffer_eq_next {s : State} {size : Nat} {t t' : State}
    (h : s.requireBuffer size t = .next t') : size ≤ s.cfg.memLen ∧ t' = t := by
  rcases s.requireBuffer_cases size t with ⟨hle, he⟩ | ⟨_, he⟩
  · rw [he] at h
    exact ⟨hle, by injection h with h; exact h.symm⟩
  · rw [he] at h
    cases h

theorem select_lt {e : Endian} {n i : Nat} (h : i < n) : select e n i < n := by
  cases e
  · exact h
  · show n - 1 - i < n
    omega

/-- The selector is its own inverse on the field. -/
theorem select_select {e : Endian} {n i : Nat} (h : i < n) : select e n (select e n i) = i := by
  cases e
  · rfl
  · show n - 1 - (n - 1 - i) = i
    omega

theorem spanFail_eq_false {size off n : Nat} : spanFail size off n = false ↔ off + n ≤ size ∧ n ≤ 8 := by
  simp [spanFail]

theorem widthFail_eq_false {n : Nat} : widthFail n = false ↔ n ≤ 64 := by
  simp [widthFail]

/-- The weight of bit index `k` (20_memory R35). -/
def bitPlace (bn : BitNum) (k : Nat) : Nat :=
  match bn with
  | .lsb0 => k
  | .msb0 => 7 - k

theorem bitmask_eq_twoPow (bn : BitNum) (k : Nat) : bitmask bn k = BitVec.twoPow 8 (bitPlace bn k) := by
  cases bn <;> apply BitVec.eq_of_toNat_eq <;> simp [bitmask, bitPlace, BitVec.toNat_twoPow]

/-- `getbit` reads one bit of the byte. -/
theorem getBit_eq_getLsbD (bn : BitNum) (b : Byte) {k : Nat} (hk : k < 8) :
    getBit bn b k = b.getLsbD (bitPlace bn k) := by
  have hp : bitPlace bn k < 8 := by cases bn <;> (simp only [bitPlace]; omega)
  rw [getBit, bitmask_eq_twoPow, BitVec.and_twoPow]
  cases hb : b.getLsbD (bitPlace bn k) with
  | false => simp
  | true =>
    have : BitVec.twoPow 8 (bitPlace bn k) ≠ 0#8 := by
      intro h
      have := congrArg (fun x => x.getLsbD (bitPlace bn k)) h
      simp [hp] at this
    simpa using this

/-- `setbit` changes the one bit and leaves the seven others (00_scope R7). -/
theorem getBit_setBit (bn : BitNum) (b : Byte) {k k' : Nat} (x : Bool) (hk : k < 8) (hk' : k' < 8) :
    getBit bn (setBit bn b k x) k' = if k' = k then x else getBit bn b k' := by
  have hp : bitPlace bn k' < 8 := by cases bn <;> (simp only [bitPlace]; omega)
  have hinj : bitPlace bn k' = bitPlace bn k ↔ k' = k := by
    cases bn
    · exact Iff.rfl
    · show 7 - k' = 7 - k ↔ k' = k
      omega
  rw [getBit_eq_getLsbD _ _ hk', getBit_eq_getLsbD _ _ hk', setBit, bitmask_eq_twoPow]
  by_cases h : k' = k
  · subst h
    cases x <;> simp [hp]
  · cases x <;> simp [hp, hinj, h]

/-! ### Commands as the host presents them -/

theorem portsFit_iff {offW : Nat} {p : CmdPorts} :
    portsFit offW p = true ↔ p.bufferSize < 2 ^ offW ∧ p.byteOffset < 2 ^ offW := by
  simp [portsFit]

theorem portsFit_eq_false {offW : Nat} {p : CmdPorts} :
    portsFit offW p = false ↔ 2 ^ offW ≤ p.bufferSize ∨ 2 ^ offW ≤ p.byteOffset := by
  rw [← Bool.not_eq_true, portsFit_iff]
  omega

theorem issuePorts_of_fit {p : CmdPorts} {s : State} (h : portsFit s.cfg.offW p = true) :
    issuePorts p s = exec (decodePorts p) s := by
  simp [issuePorts, portsCommand, h, runPresented]

theorem issuePorts_of_not_fit {p : CmdPorts} {s : State} (h : portsFit s.cfg.offW p = false) :
    issuePorts p s = .refused .notPresentable := by
  simp [issuePorts, portsCommand, h, runPresented]

theorem issueDescriptor_of_ok {w : BitVec 160} {i : Instr} (h : decode w = .ok i) (s : State) :
    issueDescriptor w s = exec i s := by
  simp [issueDescriptor, descriptorCommand, h, runPresented]

theorem issueDescriptor_of_error {w : BitVec 160} {why : DecodeError} (h : decode w = .error why) (s : State) :
    issueDescriptor w s = .refused (.invalidDescriptor why) := by
  simp [issueDescriptor, descriptorCommand, h, runPresented]

end Sys2Proof.Machine
end

