-- ==== Sys2Proof/Laws/Agents.lean ====
section
/-! SUPPORT. What one byte access of a command in progress can do: it reads and writes a byte of the command's
footprint and nothing else (20_memory R39). -/

namespace Sys2Proof.Machine

theorem mem_footprint_aligned {size off n i : Nat} {fp : List Nat}
    (hfp : fp = if spanFail size off n then [] else (List.range n).map (off + ·))
    (h : i < if spanFail size off n then 0 else n) : off + i ∈ fp := by
  subst hfp
  cases hs : spanFail size off n with
  | true => simp [hs] at h
  | false =>
    simp only [hs, Bool.false_eq_true, if_false] at h ⊢
    exact List.mem_map.mpr ⟨i, List.mem_range.mpr h, rfl⟩

theorem mem_footprint_bits {size start n i : Nat} {fp : List Nat}
    (hfp : fp = if widthFail n then []
      else ((List.range n).map fun i => byteIndex (start + i)).filter (· < size))
    (h : i < if widthFail n then 0 else inRangeBits size start n) : byteIndex (start + i) ∈ fp := by
  subst hfp
  cases hs : widthFail n with
  | true => simp [hs] at h
  | false =>
    simp only [hs, Bool.false_eq_true, if_false, inRangeBits] at h ⊢
    have hn : i < n := by omega
    have hr : byteIndex (start + i) < size := by
      unfold byteIndex
      omega
    exact List.mem_filter.mpr ⟨List.mem_map.mpr ⟨i, List.mem_range.mpr hn, rfl⟩, by simpa using hr⟩

theorem InFlight.idx_lt {f : InFlight} (h : f.done = false) : f.idx < activeTurns f.cmd := by
  simpa [InFlight.done] using h

theorem InFlight.access_of_done (bn : BitNum) {f : InFlight} (m : Memory) (h : f.done = true) :
    f.access bn m = (f, m) := by
  simp [InFlight.access, h]

/-- The operands are those sampled at issue (30_encoding R64). -/
theorem InFlight.access_cmd (bn : BitNum) (f : InFlight) (m : Memory) : (f.access bn m).1.cmd = f.cmd := by
  obtain ⟨cmd, idx, held, acc⟩ := f
  unfold InFlight.access
  split
  · rfl
  · cases cmd <;> simp only
    cases held <;> rfl

/-- An access leaves every byte outside the command's footprint as it was. -/
theorem InFlight.access_outside (bn : BitNum) (f : InFlight) (m : Memory) {a : Nat} (ha : a ∉ footprint f.cmd) :
    Memory.read (f.access bn m).2 a = Memory.read m a := by
  cases hd : f.done with
  | true => rw [InFlight.access_of_done bn m hd]
  | false =>
    have hidx := InFlight.idx_lt hd
    obtain ⟨cmd, idx, held, acc⟩ := f
    unfold InFlight.access
    simp only [hd, Bool.false_eq_true, if_false]
    cases cmd with
    | enca e size off v n =>
      have hmem : off + idx ∈ footprint (.enca e size off v n) := mem_footprint_aligned (i := idx) rfl hidx
      have hne : a ≠ off + idx := fun h => ha (h ▸ hmem)
      simp [hne]
    | deca e size off n => rfl
    | encb e size off bit v n =>
      have hmem : byteIndex (startBit off bit + idx) ∈ footprint (.encb e size off bit v n) :=
        mem_footprint_bits (i := idx) rfl hidx
      have hne : a ≠ byteIndex (startBit off bit + idx) := fun h => ha (h ▸ hmem)
      cases held with
      | none => rfl
      | some b => simp [hne]
    | decb e size off bit n => rfl

/-- An access of a decode writes nothing. -/
theorem InFlight.access_decode (bn : BitNum) (f : InFlight) (m : Memory) (h : isEncode f.cmd = false) :
    (f.access bn m).2 = m := by
  obtain ⟨cmd, idx, held, acc⟩ := f
  unfold InFlight.access
  split
  · rfl
  · cases cmd with
    | enca => cases h
    | deca => rfl
    | encb => cases h
    | decb => rfl

/-- What an access does depends on the bytes of the command's footprint only. -/
theorem InFlight.access_congr (bn : BitNum) (f : InFlight) {m m' : Memory}
    (h : ∀ a ∈ footprint f.cmd, Memory.read m a = Memory.read m' a) :
    (f.access bn m).1 = (f.access bn m').1 ∧
      ∀ a ∈ footprint f.cmd, Memory.read (f.access bn m).2 a = Memory.read (f.access bn m').2 a := by
  cases hd : f.done with
  | true => simpa [InFlight.access_of_done bn _ hd] using h
  | false =>
    have hidx := InFlight.idx_lt hd
    obtain ⟨cmd, idx, held, acc⟩ := f
    unfold InFlight.access
    simp only [hd, Bool.false_eq_true, if_false]
    cases cmd with
    | enca e size off v n =>
      refine ⟨rfl, fun a ha => ?_⟩
      simp only [Memory.read_write, h a ha]
    | deca e size off n =>
      have hmem : off + idx ∈ footprint (.deca e size off n) := mem_footprint_aligned (i := idx) rfl hidx
      simp only [h _ hmem]
      exact ⟨trivial, h⟩
    | encb e size off bit v n =>
      have hmem : byteIndex (startBit off bit + idx) ∈ footprint (.encb e size off bit v n) :=
        mem_footprint_bits (i := idx) rfl hidx
      cases held with
      | none =>
        simp only [h _ hmem]
        exact ⟨trivial, h⟩
      | some b =>
        refine ⟨rfl, fun a ha => ?_⟩
        simp only [Memory.read_write, h a ha]
    | decb e size off bit n =>
      have hmem : byteIndex (startBit off bit + idx) ∈ footprint (.decb e size off bit n) :=
        mem_footprint_bits (i := idx) rfl hidx
      simp only [h _ hmem]
      exact ⟨trivial, h⟩

/-! ### Instances: one lemma per field per update, each true by rfl -/

section fields

variable (x : Codec) (i : Instr) (f : InFlight) (y : Shared) (k : Nat) (s : State) (p : BlockParams)

@[simp] theorem Codec.reset_params : (Codec.reset p).params = p := rfl
@[simp] theorem Codec.reset_command : (Codec.reset p).command = none := rfl
@[simp] theorem Codec.reset_rsp : (Codec.reset p).rsp = none := rfl
@[simp] theorem Codec.reset_given : (Codec.reset p).given = [] := rfl
@[simp] theorem Codec.take_params : (x.take i).params = x.params := rfl
@[simp] theorem Codec.take_command : (x.take i).command = some (.issue i) := rfl
@[simp] theorem Codec.take_rsp : (x.take i).rsp = none := rfl
@[simp] theorem Codec.take_given : (x.take i).given = x.given := rfl
@[simp] theorem Codec.complete_params : (x.complete f).params = x.params := rfl
@[simp] theorem Codec.complete_command : (x.complete f).command = none := rfl
@[simp] theorem Codec.complete_rsp : (x.complete f).rsp = some f.response := rfl
@[simp] theorem Codec.complete_given : (x.complete f).given = x.given ++ [f.response] := rfl
@[simp] theorem Shared.setCodec_memLen : (y.setCodec k x).memLen = y.memLen := rfl
@[simp] theorem Shared.setCodec_mem : (y.setCodec k x).mem = y.mem := rfl
@[simp] theorem Shared.setCodec_codecs : (y.setCodec k x).codecs = y.codecs.set k x := rfl
@[simp] theorem State.withParams_params : (s.withParams p).cfg.toBlockParams = p := rfl
@[simp] theorem State.withParams_memLen : (s.withParams p).cfg.memLen = s.cfg.memLen := rfl
@[simp] theorem State.withParams_buf : (s.withParams p).buf = s.buf := rfl
@[simp] theorem State.withParams_host : (s.withParams p).host = s.host := rfl
@[simp] theorem State.withParams_rsp : (s.withParams p).rsp = s.rsp := rfl
@[simp] theorem State.withParams_bus : (s.withParams p).bus = s.bus := rfl
@[simp] theorem State.withParams_results : (s.withParams p).results = s.results := rfl
@[simp] theorem State.withParams_tick : (s.withParams p).tick = s.tick := rfl

end fields

/-- All that a turn can do: idle, complete, or make one access and go on. -/
theorem Codec.advance_cases (x : Codec) (m : Memory) :
    (x.command = none ∧ x.advance m = ({ x with rsp := none }, m)) ∨
    (∃ f, x.command = some f ∧ (f.access x.params.bitNum m).1.done = true ∧
      x.advance m = (x.complete (f.access x.params.bitNum m).1, (f.access x.params.bitNum m).2)) ∨
    ∃ f, x.command = some f ∧ (f.access x.params.bitNum m).1.done = false ∧
      x.advance m =
        ({ x with command := some (f.access x.params.bitNum m).1, rsp := none }, (f.access x.params.bitNum m).2) := by
  unfold Codec.advance
  cases hc : x.command with
  | none => exact .inl ⟨rfl, rfl⟩
  | some f =>
    cases hd : (f.access x.params.bitNum m).1.done with
    | true => exact .inr (.inl ⟨f, rfl, hd, by simp [hd]⟩)
    | false => exact .inr (.inr ⟨f, rfl, hd, by simp [hd]⟩)

/-- All that an event which answers a next state can do: nothing, a turn, a host write inside the buffer, or a new
command or a reset for an instance that is ready. -/
theorem Shared.event_cases {ev : SharedEvent} {y y' : Shared} (h : y.event ev = .next y') :
    y' = y ∨ (∃ k, ev = .advance k ∧ y' = y.advance k) ∨
    (∃ a b, ev = .hostWrite a b ∧ a < y.memLen ∧ y' = { y with mem := Memory.write y.mem a b }) ∨
    ∃ k x, ev.target = some k ∧ y.codecs[k]? = some x ∧ x.cmdReady = true ∧
      ((∃ i, i.bufferSize ≤ y.memLen ∧ y' = y.setCodec k (x.take i)) ∨
        (ev = .reset k ∧ y' = y.setCodec k { x with rsp := none })) := by
  have hissue : ∀ (k : Nat) (x : Codec) (c : Except Refusal Instr), y.issue k x c = .next y' →
      y' = y ∨ (x.cmdReady = true ∧ ∃ i, i.bufferSize ≤ y.memLen ∧ y' = y.setCodec k (x.take i)) := by
    intro k x c hi
    unfold Shared.issue at hi
    split at hi
    · cases hi
    · rename_i i
      split at hi
      · rename_i hr
        split at hi
        · cases hi
          exact .inr ⟨hr, i, by assumption, rfl⟩
        · cases hi
      · cases hi
        exact .inl rfl
  cases ev with
  | advance k =>
    cases h
    exact .inr (.inl ⟨k, rfl, rfl⟩)
  | issue k p =>
    simp only [Shared.event] at h
    split at h
    · cases h
      exact .inl rfl
    · rename_i x hx
      rcases hissue k x _ h with he | ⟨hr, i, hi, he⟩
      · exact .inl he
      · exact .inr (.inr (.inr ⟨k, x, rfl, hx, hr, .inl ⟨i, hi, he⟩⟩))
  | issueDescriptor k w =>
    simp only [Shared.event] at h
    split at h
    · cases h
      exact .inl rfl
    · rename_i x hx
      rcases hissue k x _ h with he | ⟨hr, i, hi, he⟩
      · exact .inl he
      · exact .inr (.inr (.inr ⟨k, x, rfl, hx, hr, .inl ⟨i, hi, he⟩⟩))
  | reset k =>
    simp only [Shared.event] at h
    split at h
    · cases h
      exact .inl rfl
    · rename_i x hx
      unfold Shared.resetCodec at h
      split at h
      · rename_i hr
        cases h
        exact .inr (.inr (.inr ⟨k, x, rfl, hx, hr, .inr ⟨rfl, rfl⟩⟩))
      · cases h
  | hostWrite a b =>
    simp only [Shared.event] at h
    split at h
    · cases h
      exact .inr (.inr (.inl ⟨a, b, rfl, by assumption, rfl⟩))
    · cases h

end Sys2Proof.Machine
end

