-- ==== Sys2Proof/Laws/Sums.lean ====
section
/-! SUPPORT. Numbers as sums of digits: a decode result is such a sum, and its digits are what was read. -/

namespace Sys2Proof.Machine

@[simp] theorem sumUpTo_zero (f : Nat → Nat) : sumUpTo 0 f = 0 := rfl

@[simp] theorem sumUpTo_succ (n : Nat) (f : Nat → Nat) : sumUpTo (n + 1) f = sumUpTo n f + f n := rfl

theorem sumUpTo_congr {n : Nat} {f g : Nat → Nat} (h : ∀ i, i < n → f i = g i) : sumUpTo n f = sumUpTo n g :=
  ascend_congr 0 fun i y hi => by rw [h i hi]

theorem sumUpTo_eq_sum (n : Nat) (f : Nat → Nat) : sumUpTo n f = ∑ i ∈ Finset.range n, f i := by
  induction n with
  | zero => rfl
  | succ n ih => rw [sumUpTo_succ, ih, Finset.sum_range_succ]

/-- The order in which a field is visited does not matter to its sum. -/
theorem sumUpTo_select (e : Endian) (n : Nat) (f : Nat → Nat) :
    sumUpTo n (fun i => f (select e n i)) = sumUpTo n f := by
  cases e with
  | le => rfl
  | be => simpa only [sumUpTo_eq_sum, select] using Finset.sum_range_reflect f n

/-- Digits of `w` bits below their place value. -/
theorem sumUpTo_digits_lt (w n : Nat) (d : Nat → Nat) (hd : ∀ j, j < n → d j < 2 ^ w) :
    sumUpTo n (fun j => d j * 2 ^ (w * j)) < 2 ^ (w * n) := by
  induction n with
  | zero => simp
  | succ n ih =>
    have h1 := ih fun j hj => hd j (by omega)
    have h2 := hd n (Nat.lt_succ_self n)
    rw [sumUpTo_succ, Nat.mul_succ, Nat.pow_add]
    calc _ < 2 ^ (w * n) + d n * 2 ^ (w * n) := by omega
      _ = 2 ^ (w * n) * (d n + 1) := by ring
      _ ≤ _ := Nat.mul_le_mul_left _ h2

/-- Digit `k` of a sum of digits. -/
theorem sumUpTo_digit (w n : Nat) (d : Nat → Nat) (hd : ∀ j, j < n → d j < 2 ^ w) {k : Nat} (hk : k < n) :
    sumUpTo n (fun j => d j * 2 ^ (w * j)) / 2 ^ (w * k) % 2 ^ w = d k := by
  induction n with
  | zero => omega
  | succ n ih =>
    rw [sumUpTo_succ]
    by_cases hkn : k = n
    · subst hkn
      have h1 := sumUpTo_digits_lt w k d fun j hj => hd j (by omega)
      rw [Nat.add_mul_div_right _ _ (by positivity), Nat.div_eq_of_lt h1, Nat.zero_add]
      exact Nat.mod_eq_of_lt (hd k hk)
    · have hlt : k < n := by omega
      have hsplit : d n * 2 ^ (w * n) = d n * 2 ^ (w * (n - k - 1)) * 2 ^ w * 2 ^ (w * k) := by
        rw [Nat.mul_assoc, Nat.mul_assoc, ← Nat.pow_add, ← Nat.pow_add]
        congr 2
        obtain ⟨c, rfl⟩ : ∃ c, n = k + 1 + c := ⟨n - k - 1, by omega⟩
        have : k + 1 + c - k - 1 = c := by omega
        rw [this]
        ring
      rw [hsplit, Nat.add_mul_div_right _ _ (by positivity), Nat.add_mul_mod_self_right]
      exact ih (fun j hj => hd j (by omega)) hlt

/-- A number is the sum of its digits. -/
theorem sumUpTo_of_digits (w n x : Nat) :
    sumUpTo n (fun j => x / 2 ^ (w * j) % 2 ^ w * 2 ^ (w * j)) = x % 2 ^ (w * n) := by
  induction n with
  | zero => simp [Nat.mod_one]
  | succ n ih =>
    rw [sumUpTo_succ, ih, Nat.mul_succ, Nat.pow_add, Nat.mod_mul, Nat.mul_comm (2 ^ (w * n))]

/-- A decode result: a 64-bit number whose digit `select e n i` is what turn `i` of the loop read, and which is below
the place after its last digit. -/
theorem sumUpTo_result (e : Endian) (w n : Nat) (f : Nat → Nat) (hf : ∀ i, i < n → f i < 2 ^ w)
    (hn : w * n ≤ 64) :
    (∀ i, i < n →
      (BitVec.ofNat 64 (sumUpTo n fun i => f i * 2 ^ (w * select e n i))).toNat / 2 ^ (w * select e n i) % 2 ^ w =
        f i) ∧
    (BitVec.ofNat 64 (sumUpTo n fun i => f i * 2 ^ (w * select e n i))).toNat < 2 ^ (w * n) := by
  have hsum : (sumUpTo n fun i => f i * 2 ^ (w * select e n i)) =
      sumUpTo n fun j => f (select e n j) * 2 ^ (w * j) := by
    rw [← sumUpTo_select e n fun j => f (select e n j) * 2 ^ (w * j)]
    exact sumUpTo_congr fun i hi => by rw [select_select hi]
  have hd : ∀ j, j < n → f (select e n j) < 2 ^ w := fun j hj => hf _ (select_lt hj)
  have hlt := sumUpTo_digits_lt w n _ hd
  have h64 : (2 : Nat) ^ (w * n) ≤ 2 ^ 64 := Nat.pow_le_pow_right (by decide) hn
  rw [hsum, BitVec.toNat_ofNat, Nat.mod_eq_of_lt (by omega)]
  refine ⟨fun i hi => ?_, hlt⟩
  have := sumUpTo_digit w n _ hd (select_lt (e := e) hi)
  rwa [select_select hi] at this

/-- The mask is all ones below bit `n` (42_codec_laws R129). -/
theorem fieldMask_eq (n : Nat) : fieldMask n = 2 ^ n - 1 := by
  simp [fieldMask, Nat.shiftLeft_eq]

/-- Masking is the remainder (R129). -/
@[simp] theorem and_fieldMask (x n : Nat) : x &&& fieldMask n = lowBits n x := by
  rw [fieldMask_eq, lowBits, Nat.and_two_pow_sub_one_eq_mod]

/-- A value is its own low 64 bits (R129). -/
@[simp] theorem lowBits_value (v : Value) : lowBits 64 v.toNat = v.toNat :=
  Nat.mod_eq_of_lt v.isLt

theorem lowBits_lt (n x : Nat) : lowBits n x < 2 ^ n :=
  Nat.mod_lt _ (Nat.two_pow_pos n)

end Sys2Proof.Machine
end

