-- ==== Sys2Proof/Laws/Aligned.lean ====
section
/-! SUPPORT. What the loops of the Aligned Byte Codec do. -/

namespace Sys2Proof.Machine

/-- ENCA's loop changes the buffer and the record of accesses only, which grows by one write a turn. -/
theorem encaLoop_eq (e : Endian) (off : Nat) (v : Value) (n m : Nat) (s : State) :
    ascend m (encaByte e off v n) s =
      { s with
        buf := (ascend m (encaByte e off v n) s).buf
        bus := s.bus ++ (List.range m).map fun i => Access.write (off + i) (valueByte v (select e n i)) } := by
  induction m with
  | zero => simp
  | succ m ih =>
    rw [ascend_succ, encaByte, ih]
    simp [State.memWrite, List.range_succ]

/-- ENCA's loop writes byte `k(i)` of the value at index `byte_offset + i` and no other byte. -/
theorem encaLoop_read (e : Endian) (off : Nat) (v : Value) (n m : Nat) (s : State) (a : Nat) :
    Memory.read (ascend m (encaByte e off v n) s).buf a =
      if off ≤ a ∧ a < off + m then valueByte v (select e n (a - off)) else Memory.read s.buf a := by
  induction m with
  | zero =>
    have : ¬(off ≤ a ∧ a < off + 0) := by omega
    simp only [ascend_zero, if_neg this]
  | succ m ih =>
    rw [ascend_succ, encaByte, State.memWrite_buf, Memory.read_write, ih]
    by_cases ha : a = off + m
    · subst ha
      simp
    · have : (off ≤ a ∧ a < off + (m + 1)) ↔ (off ≤ a ∧ a < off + m) := by omega
      simp only [if_neg ha, this]

/-- ENCA's loop keeps the canonical form. -/
theorem encaLoop_wf (e : Endian) (off : Nat) (v : Value) (n m : Nat) {s : State} (h : Memory.wf s.buf = true) :
    Memory.wf (ascend m (encaByte e off v n) s).buf = true :=
  ascend_rule (fun _ (t : State) => Memory.wf t.buf = true) h fun _ _ _ ht => Memory.wf_write _ _ ht

/-- DECA's loop gathers the sum of the bytes at their places and changes only the record of accesses, which grows by
one read a turn. -/
theorem decaLoop_eq (e : Endian) (off n m : Nat) (s : State) :
    ascend m (decaByte e off n) (0, s) =
      (sumUpTo m fun i => (Memory.read s.buf (off + i)).toNat * 2 ^ (8 * select e n i),
        { s with bus := s.bus ++ (List.range m).map fun i => Access.read (off + i) (Memory.read s.buf (off + i)) }) := by
  induction m with
  | zero => simp
  | succ m ih =>
    rw [ascend_succ, ih]
    simp [decaByte, State.memRead, List.range_succ]

/-- 40_aligned R80, R84: ENCA does nothing, or runs its loop. -/
theorem encaBytes_cases (e : Endian) (size off : Nat) (v : Value) (n : Nat) (s : State) :
    (size < off + n ∨ 8 < n) ∧ encaBytes e size off v n s = s ∨
      (off + n ≤ size ∧ n ≤ 8) ∧ encaBytes e size off v n s = ascend n (encaByte e off v n) s := by
  unfold encaBytes
  cases h : spanFail size off n with
  | false => exact .inr ⟨spanFail_eq_false.mp h, by simp⟩
  | true => exact .inl ⟨by simpa [spanFail] using h, by simp⟩

/-- 40_aligned R80, R86: DECA gives 0 without an access, or runs its loop. -/
theorem decaBytes_cases (e : Endian) (size off n : Nat) (s : State) :
    (size < off + n ∨ 8 < n) ∧ decaBytes e size off n s = (0, s) ∨
      (off + n ≤ size ∧ n ≤ 8) ∧ decaBytes e size off n s = ascend n (decaByte e off n) (0, s) := by
  unfold decaBytes
  cases h : spanFail size off n with
  | false => exact .inr ⟨spanFail_eq_false.mp h, by simp⟩
  | true => exact .inl ⟨by simpa [spanFail] using h, by simp⟩

theorem encaBytes_read (e : Endian) (size off : Nat) (v : Value) (n : Nat) (s : State) (a : Nat) :
    Memory.read (encaBytes e size off v n s).buf a =
      if off + n ≤ size ∧ n ≤ 8 ∧ off ≤ a ∧ a < off + n then valueByte v (select e n (a - off))
      else Memory.read s.buf a := by
  rcases encaBytes_cases e size off v n s with ⟨h, he⟩ | ⟨h, he⟩ <;> rw [he]
  · rw [if_neg (by omega)]
  · rw [encaLoop_read]
    simp [h]

theorem encaBytes_eq (e : Endian) (size off : Nat) (v : Value) (n : Nat) (s : State) :
    encaBytes e size off v n s =
      { s with
        buf := (encaBytes e size off v n s).buf
        bus := s.bus ++
          if off + n ≤ size ∧ n ≤ 8 then
            (List.range n).map fun i => Access.write (off + i) (valueByte v (select e n i))
          else [] } := by
  rcases encaBytes_cases e size off v n s with ⟨h, he⟩ | ⟨h, he⟩
  · rw [he, if_neg (by omega), List.append_nil]
  · rw [he, if_pos h]
    exact encaLoop_eq e off v n n s

theorem decaBytes_eq (e : Endian) (size off n : Nat) (s : State) :
    decaBytes e size off n s =
      (if off + n ≤ size ∧ n ≤ 8 then
          sumUpTo n fun i => (Memory.read s.buf (off + i)).toNat * 2 ^ (8 * select e n i)
        else 0,
        { s with
          bus := s.bus ++
            if off + n ≤ size ∧ n ≤ 8 then
              (List.range n).map fun i => Access.read (off + i) (Memory.read s.buf (off + i))
            else [] }) := by
  rcases decaBytes_cases e size off n s with ⟨h, he⟩ | ⟨h, he⟩
  · rw [he, if_neg (by omega), if_neg (by omega), List.append_nil]
  · rw [he, if_pos h, if_pos h]
    exact decaLoop_eq e off n n s

theorem encaBytes_wf (e : Endian) (size off : Nat) (v : Value) (n : Nat) {s : State}
    (h : Memory.wf s.buf = true) : Memory.wf (encaBytes e size off v n s).buf = true := by
  rcases encaBytes_cases e size off v n s with ⟨_, he⟩ | ⟨_, he⟩ <;> rw [he]
  · exact h
  · exact encaLoop_wf e off v n n h

end Sys2Proof.Machine
end

