-- ==== Sys2Proof/Laws/Assembly.lean ====
section
/-! SUPPORT. The textual syntax: digits are read back, and parts without a separator are split apart. -/

namespace Sys2Proof.Machine

/-- The character of a decimal digit. -/
def digitChar (d : Nat) : Char :=
  Char.ofNat ('0'.toNat + d)

theorem digitChar_facts : ∀ d, d < 10 →
    digitValue (digitChar d) = some d ∧ isBlank (digitChar d) = false ∧ digitChar d ≠ ',' ∧ digitChar d ≠ 'x' := by
  decide

/-- A text of decimal digits. -/
def AllDigits (cs : List Char) : Prop :=
  ∀ c ∈ cs, ∃ d, d < 10 ∧ c = digitChar d

theorem writeDigits_allDigits (fuel n : Nat) (rest : List Char) (h : AllDigits rest) :
    AllDigits (writeDigits fuel n rest) := by
  induction fuel generalizing n rest with
  | zero => exact h
  | succ fuel ih =>
    have h' : AllDigits (digitChar (n % 10) :: rest) := by
      intro c hc
      rcases List.mem_cons.1 hc with rfl | hc
      · exact ⟨n % 10, Nat.mod_lt _ (by decide), rfl⟩
      · exact h c hc
    simp only [writeDigits]
    split
    · exact h'
    · exact ih _ _ h'

theorem readDigits_digit (d : Nat) (h : d < 10) (rest : List Char) (acc : Nat) :
    readDigits 10 (digitChar d :: rest) acc = readDigits 10 rest (acc * 10 + d) := by
  simp [readDigits, (digitChar_facts d h).1, h]

/-- Reading what was written takes the number as read so far. -/
theorem readDigits_writeDigits (fuel n : Nat) (rest : List Char) (h : n < fuel) :
    readDigits 10 (writeDigits fuel n rest) 0 = readDigits 10 rest n := by
  induction fuel generalizing n rest with
  | zero => omega
  | succ fuel ih =>
    have hd := fun acc => readDigits_digit (n % 10) (Nat.mod_lt _ (by decide)) rest acc
    simp only [writeDigits]
    split
    · have e : n % 10 = n := by omega
      exact (hd 0).trans (by rw [e]; simp)
    · rw [ih _ _ (by omega)]
      exact (hd _).trans (by rw [show n / 10 * 10 + n % 10 = n by omega])

theorem writeDigits_ne_nil (fuel n : Nat) (rest : List Char) (h : rest ≠ [] ∨ 0 < fuel) :
    writeDigits fuel n rest ≠ [] := by
  induction fuel generalizing n rest with
  | zero => simpa [writeDigits] using h
  | succ fuel ih =>
    simp only [writeDigits]
    split
    · simp
    · exact ih _ _ (Or.inl (by simp))

theorem writeNumeral_allDigits (n : Nat) : AllDigits (writeNumeral n) :=
  writeDigits_allDigits _ _ _ (by intro c hc; cases hc)

theorem writeNumeral_ne_nil (n : Nat) : writeNumeral n ≠ [] :=
  writeDigits_ne_nil _ _ _ (Or.inr (Nat.succ_pos n))

/-- A decimal numeral reads back as its number. -/
theorem readNumeral_writeNumeral (n : Nat) : readNumeral (writeNumeral n) = some n := by
  have hr : readDigits 10 (writeNumeral n) 0 = some n := readDigits_writeDigits (n + 1) n [] (by omega)
  have hx : ∀ c ∈ writeNumeral n, c ≠ 'x' := by
    intro c hc
    obtain ⟨d, hd, rfl⟩ := writeNumeral_allDigits n c hc
    exact (digitChar_facts d hd).2.2.2
  unfold readNumeral
  split
  · exact absurd ‹writeNumeral n = []› (writeNumeral_ne_nil n)
  · exact absurd rfl (hx 'x' (by simp [*]))
  · exact absurd rfl (hx 'x' (by simp [*]))
  · exact hr

/-- A text without blanks is its own trimmed text, with one blank in front or not. -/
theorem trimBlanks_of_noBlank (cs : List Char) (h : ∀ c ∈ cs, isBlank c = false) :
    trimBlanks cs = cs ∧ trimBlanks (' ' :: cs) = cs := by
  have drop : ∀ ds : List Char, (∀ c ∈ ds, isBlank c = false) → ds.dropWhile isBlank = ds := by
    intro ds hd
    cases ds with
    | nil => rfl
    | cons c rest => simp [hd c (by simp)]
  have hrev : ∀ c ∈ cs.reverse, isBlank c = false := fun c hc => h c (by simpa using hc)
  have hb : isBlank ' ' = true := by decide
  simp [trimBlanks, hb, drop cs h, drop _ hrev]

/-- A part without the separator is split off whole. -/
theorem splitAtChar_append (sep : Char) (a b : List Char) (h : sep ∉ a) :
    splitAtChar sep (a ++ sep :: b) = a :: splitAtChar sep b := by
  induction a with
  | nil => simp [splitAtChar]
  | cons c rest ih =>
    have hc : c ≠ sep := fun e => h (by simp [e])
    have hr : sep ∉ rest := fun e => h (by simp [e])
    simp [splitAtChar, hc, ih hr]

theorem splitAtChar_of_not_mem (sep : Char) (a : List Char) (h : sep ∉ a) : splitAtChar sep a = [a] := by
  induction a with
  | nil => rfl
  | cons c rest ih =>
    have hc : c ≠ sep := fun e => h (by simp [e])
    have hr : sep ∉ rest := fun e => h (by simp [e])
    simp [splitAtChar, hc, ih hr]

theorem writeNumeral_facts (n : Nat) : ',' ∉ writeNumeral n ∧ ∀ c ∈ writeNumeral n, isBlank c = false := by
  constructor
  · intro hc
    obtain ⟨d, hd, e⟩ := writeNumeral_allDigits n _ hc
    exact (digitChar_facts d hd).2.2.1 e.symm
  · intro c hc
    obtain ⟨d, hd, rfl⟩ := writeNumeral_allDigits n c hc
    exact (digitChar_facts d hd).2.1

end Sys2Proof.Machine
end

