-- ==== Sys2Proof/Laws/Bits.lean ====
section
/-! SUPPORT. What the loops of the Bit Codec do. -/

namespace Sys2Proof.Machine

theorem bitIndex_lt (pos : Nat) : bitIndex pos < 8 :=
  Nat.mod_lt pos (by decide)

/-- A position is its byte and its bit. -/
theorem pos_eq_iff (p q : Nat) : p = q ↔ byteIndex p = byteIndex q ∧ bitIndex p = bitIndex q := by
  unfold byteIndex bitIndex
  omega

/-- Writing one bit by a read-modify-write of its byte changes that bit of the buffer and no other. -/
theorem bufBit_writeBit (bn : BitNum) (m : Memory) (p : Nat) (x : Bool) (pos : Nat) :
    bufBit bn (Memory.write m (byteIndex p) (setBit bn (Memory.read m (byteIndex p)) (bitIndex p) x)) pos =
      if pos = p then x else bufBit bn m pos := by
  simp only [bufBit, Memory.read_write, pos_eq_iff pos p]
  by_cases hb : byteIndex pos = byteIndex p
  · simp only [hb, if_true, true_and]
    exact getBit_setBit bn _ x (bitIndex_lt p) (bitIndex_lt pos)
  · simp [hb]

/-- Two memories with the same bits have the same bytes. -/
theorem read_eq_of_bufBit {bn : BitNum} {m m' : Memory} {a : Nat}
    (h : ∀ k, k < 8 → bufBit bn m (8 * a + k) = bufBit bn m' (8 * a + k)) :
    Memory.read m a = Memory.read m' a := by
  have hk : ∀ k, k < 8 → getBit bn (Memory.read m a) k = getBit bn (Memory.read m' a) k := by
    intro k hk
    have h1 : byteIndex (8 * a + k) = a := by unfold byteIndex; omega
    have h2 : bitIndex (8 * a + k) = k := by unfold bitIndex; omega
    simpa only [bufBit, h1, h2] using h k hk
  ext j hj
  cases bn with
  | lsb0 => simpa [getBit_eq_getLsbD _ _ hj, bitPlace, hj] using hk j hj
  | msb0 =>
    have : 7 - (7 - j) = j := by omega
    simpa [getBit_eq_getLsbD _ _ (show 7 - j < 8 by omega), bitPlace, hj, this] using hk (7 - j) (by omega)

/-- A bit that is out of range is skipped. -/
theorem encbBit_skip {e : Endian} {size start : Nat} {v : Value} {n i : Nat} {s : State}
    (h : size ≤ byteIndex (start + i)) : encbBit e size start v n i s = s :=
  if_pos h

/-- A bit that is in range is written by a read and a write of its byte. -/
theorem encbBit_write {e : Endian} {size start : Nat} {v : Value} {n i : Nat} {s : State}
    (h : byteIndex (start + i) < size) :
    encbBit e size start v n i s =
      (s.memRead (byteIndex (start + i))).2.memWrite (byteIndex (start + i))
        (setBit s.cfg.bitNum (Memory.read s.buf (byteIndex (start + i))) (bitIndex (start + i))
          (valueBit v (select e n i))) :=
  if_neg (Nat.not_le.mpr h)

/-- One turn of ENCB's loop changes the buffer and the record of accesses only. -/
theorem encbBit_eq (e : Endian) (size start : Nat) (v : Value) (n i : Nat) (s : State) :
    encbBit e size start v n i s =
      { s with buf := (encbBit e size start v n i s).buf, bus := (encbBit e size start v n i s).bus } := by
  by_cases h : byteIndex (start + i) < size
  · rw [encbBit_write h]; rfl
  · rw [encbBit_skip (Nat.le_of_not_lt h)]

/-- One turn of ENCB's loop writes bit `j(i)` of the value at `start_bit + i` when that is in range, and nothing else. -/
theorem encbBit_bufBit (e : Endian) (size start : Nat) (v : Value) (n i : Nat) (s : State) (pos : Nat) :
    bufBit s.cfg.bitNum (encbBit e size start v n i s).buf pos =
      if pos = start + i ∧ byteIndex pos < size then valueBit v (select e n i) else bufBit s.cfg.bitNum s.buf pos := by
  by_cases h : byteIndex (start + i) < size
  · rw [encbBit_write h, State.memWrite_buf, State.memRead_buf, bufBit_writeBit]
    by_cases hp : pos = start + i
    · subst hp
      simp [h]
    · simp [hp]
  · rw [encbBit_skip (Nat.le_of_not_lt h)]
    by_cases hp : pos = start + i
    · subst hp
      simp [h]
    · simp [hp]

/-- The accesses of one turn of ENCB's loop: a read and a write of the bit's byte, or none. -/
theorem encbBit_bus (e : Endian) (size start : Nat) (v : Value) (n i : Nat) (s : State) :
    ∃ b b', (encbBit e size start v n i s).bus = s.bus ++
      if byteIndex (start + i) < size then
        [Access.read (byteIndex (start + i)) b, Access.write (byteIndex (start + i)) b']
      else [] := by
  by_cases h : byteIndex (start + i) < size
  · refine ⟨Memory.read s.buf (byteIndex (start + i)),
      setBit s.cfg.bitNum (Memory.read s.buf (byteIndex (start + i))) (bitIndex (start + i))
        (valueBit v (select e n i)), ?_⟩
    rw [encbBit_write h, if_pos h]
    simp
  · refine ⟨0, 0, ?_⟩
    rw [encbBit_skip (Nat.le_of_not_lt h), if_neg h, List.append_nil]

/-- ENCB's loop changes the buffer and the record of accesses only. -/
theorem encbLoop_eq (e : Endian) (size start : Nat) (v : Value) (n m : Nat) (s : State) :
    ascend m (encbBit e size start v n) s =
      { s with
        buf := (ascend m (encbBit e size start v n) s).buf
        bus := (ascend m (encbBit e size start v n) s).bus } := by
  induction m with
  | zero => rfl
  | succ m ih =>
    rw [ascend_succ]
    generalize ascend m (encbBit e size start v n) s = u at ih
    rw [encbBit_eq]
    cases u
    cases ih
    rfl

/-- ENCB's loop writes the in-range bits of the field and no other bit. -/
theorem encbLoop_bufBit (e : Endian) (size start : Nat) (v : Value) (n m : Nat) (s : State) (pos : Nat) :
    bufBit s.cfg.bitNum (ascend m (encbBit e size start v n) s).buf pos =
      if start ≤ pos ∧ pos < start + m ∧ byteIndex pos < size then valueBit v (select e n (pos - start))
      else bufBit s.cfg.bitNum s.buf pos := by
  induction m with
  | zero =>
    have : ¬(start ≤ pos ∧ pos < start + 0 ∧ byteIndex pos < size) := by omega
    rw [ascend_zero, if_neg this]
  | succ m ih =>
    have hcfg : (ascend m (encbBit e size start v n) s).cfg = s.cfg := by rw [encbLoop_eq]
    rw [ascend_succ]
    have := encbBit_bufBit e size start v n m (ascend m (encbBit e size start v n) s) pos
    rw [hcfg] at this
    rw [this, ih]
    by_cases hp : pos = start + m
    · subst hp
      by_cases hr : byteIndex (start + m) < size <;> simp [hr]
    · have : (start ≤ pos ∧ pos < start + (m + 1) ∧ byteIndex pos < size) ↔
          (start ≤ pos ∧ pos < start + m ∧ byteIndex pos < size) := by omega
      simp only [hp, false_and, if_false, this]

/-- ENCB's loop keeps the canonical form. -/
theorem encbLoop_wf (e : Endian) (size start : Nat) (v : Value) (n m : Nat) {s : State}
    (h : Memory.wf s.buf = true) : Memory.wf (ascend m (encbBit e size start v n) s).buf = true := by
  refine ascend_rule (fun _ (t : State) => Memory.wf t.buf = true) h fun i t _ ht => ?_
  by_cases hr : byteIndex (start + i) < size
  · rw [encbBit_write hr]
    exact Memory.wf_write _ _ ht
  · rw [encbBit_skip (Nat.le_of_not_lt hr)]
    exact ht

/-- DECB's loop gathers the sum of the in-range bits at their places and changes only the record of accesses, which
grows by one read for each of them. -/
theorem decbLoop_eq (e : Endian) (size start n m : Nat) (s : State) :
    ascend m (decbBit e size start n) (0, s) =
      (sumUpTo m fun i =>
          (decide (byteIndex (start + i) < size) && bufBit s.cfg.bitNum s.buf (start + i)).toNat * 2 ^ select e n i,
        { s with
          bus := s.bus ++ (((List.range m).map fun i => byteIndex (start + i)).filter (· < size)).map
            fun a => Access.read a (Memory.read s.buf a) }) := by
  induction m with
  | zero => simp
  | succ m ih =>
    rw [ascend_succ, ih]
    by_cases h : byteIndex (start + m) < size
    · simp [decbBit, State.memRead, List.range_succ, h, bufBit]
    · simp [decbBit, List.range_succ, h, Nat.le_of_not_lt h]

/-- 41_bit_codec R101: ENCB does nothing, or runs its loop. -/
theorem encbBits_cases (e : Endian) (size start : Nat) (v : Value) (n : Nat) (s : State) :
    64 < n ∧ encbBits e size start v n s = s ∨
      n ≤ 64 ∧ encbBits e size start v n s = ascend n (encbBit e size start v n) s := by
  unfold encbBits
  cases h : widthFail n with
  | false => exact .inr ⟨widthFail_eq_false.mp h, by simp⟩
  | true => exact .inl ⟨by simpa [widthFail] using h, by simp⟩

/-- 41_bit_codec R101, R110: DECB gives 0 without an access, or runs its loop. -/
theorem decbBits_cases (e : Endian) (size start n : Nat) (s : State) :
    64 < n ∧ decbBits e size start n s = (0, s) ∨
      n ≤ 64 ∧ decbBits e size start n s = ascend n (decbBit e size start n) (0, s) := by
  unfold decbBits
  cases h : widthFail n with
  | false => exact .inr ⟨widthFail_eq_false.mp h, by simp⟩
  | true => exact .inl ⟨by simpa [widthFail] using h, by simp⟩

theorem encbBits_eq (e : Endian) (size start : Nat) (v : Value) (n : Nat) (s : State) :
    encbBits e size start v n s =
      { s with buf := (encbBits e size start v n s).buf, bus := (encbBits e size start v n s).bus } := by
  rcases encbBits_cases e size start v n s with ⟨_, he⟩ | ⟨_, he⟩ <;> rw [he]
  exact encbLoop_eq e size start v n n s

theorem encbBits_bufBit (e : Endian) (size start : Nat) (v : Value) (n : Nat) (s : State) (pos : Nat) :
    bufBit s.cfg.bitNum (encbBits e size start v n s).buf pos =
      if n ≤ 64 ∧ start ≤ pos ∧ pos < start + n ∧ byteIndex pos < size then valueBit v (select e n (pos - start))
      else bufBit s.cfg.bitNum s.buf pos := by
  rcases encbBits_cases e size start v n s with ⟨h, he⟩ | ⟨h, he⟩ <;> rw [he]
  · rw [if_neg (by omega)]
  · rw [encbLoop_bufBit]
    simp [h]

theorem encbBits_wf (e : Endian) (size start : Nat) (v : Value) (n : Nat) {s : State}
    (h : Memory.wf s.buf = true) : Memory.wf (encbBits e size start v n s).buf = true := by
  rcases encbBits_cases e size start v n s with ⟨_, he⟩ | ⟨_, he⟩ <;> rw [he]
  · exact h
  · exact encbLoop_wf e size start v n n h

/-- The accesses of ENCB: a read and a write of the byte of each in-range bit, in ascending order. -/
theorem encbLoop_bus (e : Endian) (size start : Nat) (v : Value) (n m : Nat) (s : State) :
    ∃ accesses, (ascend m (encbBit e size start v n) s).bus = s.bus ++ accesses ∧
      (accesses.map fun x => (x.isWrite, x.addr)) =
        (((List.range m).map fun i => byteIndex (start + i)).filter (· < size)).flatMap
          fun a => [(false, a), (true, a)] := by
  induction m with
  | zero => exact ⟨[], by simp⟩
  | succ m ih =>
    obtain ⟨acc, hacc, hmap⟩ := ih
    obtain ⟨b, b', hb⟩ := encbBit_bus e size start v n m (ascend m (encbBit e size start v n) s)
    refine ⟨_, by rw [ascend_succ, hb, hacc, List.append_assoc], ?_⟩
    by_cases h : byteIndex (start + m) < size <;> simp [List.range_succ, hmap, h]

theorem decbBits_eq (e : Endian) (size start n : Nat) (s : State) :
    decbBits e size start n s =
      (if n ≤ 64 then
          sumUpTo n fun i =>
            (decide (byteIndex (start + i) < size) && bufBit s.cfg.bitNum s.buf (start + i)).toNat * 2 ^ select e n i
        else 0,
        { s with
          bus := s.bus ++
            if n ≤ 64 then
              (((List.range n).map fun i => byteIndex (start + i)).filter (· < size)).map
                fun a => Access.read a (Memory.read s.buf a)
            else [] }) := by
  rcases decbBits_cases e size start n s with ⟨h, he⟩ | ⟨h, he⟩
  · rw [he, if_neg (by omega), if_neg (by omega), List.append_nil]
  · rw [he, if_pos h, if_pos h]
    exact decbLoop_eq e size start n n s

end Sys2Proof.Machine
end

