-- ==== Sys2Proof/Laws/Encoding.lean ====
section
/-! SUPPORT. The fields of a packed descriptor read back as they were laid out (30_encoding R66). -/

namespace Sys2Proof

/-- A field that ends below the low part of a concatenation. -/
theorem extract_append_low {m k : Nat} (x : BitVec m) (y : BitVec k) (lo len : Nat) (h : lo + len ≤ k) :
    (x ++ y).extractLsb' lo len = y.extractLsb' lo len := by
  ext j hj
  simp [BitVec.getLsbD_append, show lo + j < k by omega]

/-- A field that starts at or above the low part of a concatenation. -/
theorem extract_append_high {m k : Nat} (x : BitVec m) (y : BitVec k) (lo len : Nat) (h : k ≤ lo) :
    (x ++ y).extractLsb' lo len = x.extractLsb' (lo - k) len := by
  ext j hj
  simp [BitVec.getLsbD_append, show ¬ lo + j < k by omega, show lo + j - k = lo - k + j by omega]

theorem extract_all {k : Nat} (x : BitVec k) : x.extractLsb' 0 k = x := by
  ext j hj
  simp

theorem toFin_ofFin (b : Fin 8) : (BitVec.ofFin (w := 3) b).toFin = b := rfl

section
variable (p : CmdPorts)

theorem pack_fn : (packDescriptor p).extractLsb' 0 3 = p.fn := by
  rw [packDescriptor, extract_append_low _ _ _ _ (by decide), extract_all]

theorem pack_bitOffset : (packDescriptor p).extractLsb' 3 3 = BitVec.ofFin (w := 3) p.bitOffset := by
  rw [packDescriptor, extract_append_high _ _ _ _ (by decide), extract_append_low _ _ _ _ (by decide), extract_all]

theorem pack_reservedLow : (packDescriptor p).extractLsb' 6 2 = 0#2 := by
  rw [packDescriptor, extract_append_high _ _ _ _ (by decide), extract_append_high _ _ _ _ (by decide),
    extract_append_low _ _ _ _ (by decide), extract_all]

theorem pack_count : (packDescriptor p).extractLsb' 8 8 = p.count := by
  rw [packDescriptor, extract_append_high _ _ _ _ (by decide), extract_append_high _ _ _ _ (by decide),
    extract_append_high _ _ _ _ (by decide), extract_append_low _ _ _ _ (by decide), extract_all]

theorem pack_reservedHigh : (packDescriptor p).extractLsb' 16 16 = 0#16 := by
  rw [packDescriptor, extract_append_high _ _ _ _ (by decide), extract_append_high _ _ _ _ (by decide),
    extract_append_high _ _ _ _ (by decide), extract_append_high _ _ _ _ (by decide),
    extract_append_low _ _ _ _ (by decide), extract_all]

theorem pack_byteOffset : (packDescriptor p).extractLsb' 32 32 = BitVec.ofNat 32 p.byteOffset := by
  rw [packDescriptor, extract_append_high _ _ _ _ (by decide), extract_append_high _ _ _ _ (by decide),
    extract_append_high _ _ _ _ (by decide), extract_append_high _ _ _ _ (by decide),
    extract_append_high _ _ _ _ (by decide), extract_append_low _ _ _ _ (by decide), extract_all]

theorem pack_bufferSize : (packDescriptor p).extractLsb' 64 32 = BitVec.ofNat 32 p.bufferSize := by
  rw [packDescriptor, extract_append_high _ _ _ _ (by decide), extract_append_high _ _ _ _ (by decide),
    extract_append_high _ _ _ _ (by decide), extract_append_high _ _ _ _ (by decide),
    extract_append_high _ _ _ _ (by decide), extract_append_high _ _ _ _ (by decide),
    extract_append_low _ _ _ _ (by decide), extract_all]

theorem pack_value : (packDescriptor p).extractLsb' 96 64 = p.value := by
  rw [packDescriptor, extract_append_high _ _ _ _ (by decide), extract_append_high _ _ _ _ (by decide),
    extract_append_high _ _ _ _ (by decide), extract_append_high _ _ _ _ (by decide),
    extract_append_high _ _ _ _ (by decide), extract_append_high _ _ _ _ (by decide),
    extract_append_high _ _ _ _ (by decide), extract_all]

/-- The ports read from a packed descriptor are those that were packed, when the offsets fit. -/
theorem descriptorPorts_pack (hs : p.bufferSize < 2 ^ 32) (ho : p.byteOffset < 2 ^ 32) :
    descriptorPorts (packDescriptor p) = p := by
  unfold descriptorPorts
  rw [pack_fn, pack_bitOffset, pack_count, pack_byteOffset, pack_bufferSize, pack_value, toFin_ofFin,
    BitVec.toNat_ofNat, BitVec.toNat_ofNat, Nat.mod_eq_of_lt hs, Nat.mod_eq_of_lt ho]

end

end Sys2Proof
end

