-- ==== Sys2Proof/Laws/PerInstr.lean ====
section
/-! SUPPORT. Families of statements made per instruction: one lemma per constructor of Instr. -/

namespace Sys2Proof.Laws.FunctionCode

/-- 30_encoding R66: CMD[2:0] of an instruction's descriptor. -/
def code : Instr → BitVec 3
  | .enca e .. => functionCode false false e
  | .deca e .. => functionCode false true e
  | .encb e .. => functionCode true false e
  | .decb e .. => functionCode true true e

/-- The descriptor of an instruction carries its function code (30_encoding R60, R66). -/
def Statement (i : Instr) : Prop :=
  (encode i).extractLsb' 0 3 = code i

theorem low_bits {m : Nat} (x : BitVec m) (f : BitVec 3) : (x ++ f).extractLsb' 0 3 = f := by
  ext j hj
  simp [BitVec.getLsbD_append, hj]

theorem enca (e : Endian) (size off : Nat) (v : Value) (n : Nat) : Statement (.enca e size off v n) :=
  low_bits _ _

theorem deca (e : Endian) (size off n : Nat) : Statement (.deca e size off n) :=
  low_bits _ _

theorem encb (e : Endian) (size off : Nat) (bit : Fin 8) (v : Value) (n : Nat) :
    Statement (.encb e size off bit v n) :=
  low_bits _ _

theorem decb (e : Endian) (size off : Nat) (bit : Fin 8) (n : Nat) : Statement (.decb e size off bit n) :=
  low_bits _ _

end Sys2Proof.Laws.FunctionCode
end

