-- ==== Sys2Proof/Tests/Slice0.lean ====
section
/-! SUPPORT. Small checks: an ill-formed command for each check of WellFormed, words written out field by field from
30_encoding R66, one-step vectors of 95_test_vectors, and a witness for the hypotheses of each statement. -/

namespace Sys2Proof.Tests

open Sys2Proof.Machine

/-! ## WellFormed: each check refuses -/

theorem test_wellFormed_refuses_bufferSize : WellFormed (.enca .le (2 ^ 32) 0 0 1) = false := by decide
theorem test_wellFormed_refuses_byteOffset : WellFormed (.decb .be 4 (2 ^ 32) 7 1) = false := by decide
theorem test_wellFormed_refuses_count : WellFormed (.deca .le 4 0 256) = false := by decide
theorem test_wellFormed_admits_the_largest :
    WellFormed (.encb .be (2 ^ 32 - 1) (2 ^ 32 - 1) 7 (BitVec.allOnes 64) 255) = true := by decide

/-! ## Words written out from the layout of 30_encoding R66: value, buffer_size, byte_offset, reserved, count,
reserved, bit_offset, fn -/

/-- 95_test_vectors A1. -/
theorem test_decode_enca :
    decode (0xABCD#64 ++ 4#32 ++ 1#32 ++ 0#16 ++ 0b00000010#8 ++ 0b00#2 ++ 0b000#3 ++ 0b000#3) =
      .ok (.enca .le 4 1 0xABCD 2) := by decide
/-- 95_test_vectors B2. -/
theorem test_decode_deca :
    decode (0#64 ++ 5#32 ++ 1#32 ++ 0#16 ++ 0b00000010#8 ++ 0b00#2 ++ 0b000#3 ++ 0b011#3) =
      .ok (.deca .be 5 1 2) := by decide
/-- 95_test_vectors E14. -/
theorem test_decode_encb :
    decode (0x0123456789ABCDEF#64 ++ 9#32 ++ 0#32 ++ 0#16 ++ 0b01000000#8 ++ 0b00#2 ++ 0b100#3 ++ 0b101#3) =
      .ok (.encb .be 9 0 4 0x0123456789ABCDEF 64) := by decide
/-- 95_test_vectors F5. -/
theorem test_decode_decb :
    decode (0#64 ++ 3#32 ++ 0#32 ++ 0#16 ++ 0b00001100#8 ++ 0b00#2 ++ 0b110#3 ++ 0b110#3) =
      .ok (.decb .le 3 0 6 12) := by decide
/-- 95_test_vectors X2, its five 32-bit words W4 to W0. -/
theorem test_decode_all_fields_at_their_maximum :
    decode (0xFFFFFFFF#32 ++ 0xFFFFFFFF#32 ++ 0xFFFFFFFF#32 ++ 0xFFFFFFFF#32 ++ 0x0000FF3D#32) =
      .ok (.encb .be 0xFFFFFFFF 0xFFFFFFFF 7 0xFFFFFFFFFFFFFFFF 255) := by decide
/-- 95_test_vectors X6: CMD[31] is reserved. -/
theorem test_decode_refuses_reserved_bit :
    decode (0#32 ++ 0x0000ABCD#32 ++ 4#32 ++ 1#32 ++ 0x80000200#32) = .error .reservedBits := by decide
/-- 95_test_vectors X9: a decode with a value. -/
theorem test_decode_refuses_unused_value :
    decode (0x80000000#32 ++ 0#32 ++ 3#32 ++ 0#32 ++ 0x00000C36#32) = .error .unusedValue := by decide
/-- opcode_table.json, the row DECB with every other field 0. -/
theorem test_decodeTableWord_decb : decodeTableWord 160 0x6 = some (.decb .le 0 0 0 0) := by decide
theorem test_withFetchWord_runs_the_row :
    (match step (State.withFetchWord State.reset 160 0x6) with
      | .next t => t.results
      | _ => []) = [0] := by decide

/-! ## Text (30_encoding R71) -/

/-- The example of R71. -/
theorem test_read_enca :
    readLine "ENCA.LE 4, 1, 0xABCD, 2".toList = some (.command (.enca .le 4 1 0xABCD 2) none) := by decide
/-- 95_test_vectors F6 with a result name and a comment. -/
theorem test_read_decb :
    readLine "DECB.BE 3, 0, 6, 12 -> x ; F6".toList = some (.command (.decb .be 3 0 6 12) (some ['x'])) := by decide
theorem test_read_program :
    readProgram "; P3\nDECA.BE 8, 2, 4 -> a\n\nENCB.LE 2, 0, 3, 0x13, 5".toList =
      some [.deca .be 8 2 4, .encb .le 2 0 3 0x13 5] := by decide
/-- The suffix is mandatory, only a decode line may name a result, and a bit offset above 7 is refused. -/
theorem test_read_refuses :
    readLine "ENCA 4, 1, 0xABCD, 2".toList = none ∧ readLine "ENCA.LE 4, 1, 0xABCD, 2 -> x".toList = none ∧
      readLine "DECB.LE 4, 1, 8, 3".toList = none := by decide

/-! ## One step on a small buffer -/

/-- A buffer of these bytes whose host issues one command as a descriptor. -/
def one (bn : BitNum) (bytes : List Byte) (i : Instr) : State :=
  launch ⟨bn, 32, true⟩ bytes [.descriptor (encode i)]

/-- The bytes after one step, and the results. -/
def after (s : State) : Option (List Byte × List Value × Option Response) :=
  match step s with
  | .next t => some (Memory.bytes t.buf t.cfg.memLen, t.results, t.rsp)
  | _ => none

/-- 95_test_vectors A8. -/
theorem test_enca_be_truncates :
    after (one .lsb0 [0, 0, 0, 0, 0, 0] (.enca .be 6 1 0x1122334455667788 3)) =
      some ([0x00, 0x66, 0x77, 0x88, 0x00, 0x00], [], some ⟨none, .ok⟩) := by decide
/-- 95_test_vectors A9. -/
theorem test_enca_off_by_one_writes_nothing :
    after (one .lsb0 [0xAA, 0xBB, 0xCC, 0xDD] (.enca .le 4 3 0xBEEF 2)) =
      some ([0xAA, 0xBB, 0xCC, 0xDD], [], some ⟨none, .outOfRange⟩) := by decide
/-- 95_test_vectors B6. -/
theorem test_deca_be_at_the_end_of_the_buffer :
    after (one .lsb0 [0xAA, 0xBB, 0xCC, 0xDD] (.deca .be 4 1 3)) =
      some ([0xAA, 0xBB, 0xCC, 0xDD], [0xBBCCDD], some ⟨some 0xBBCCDD, .ok⟩) := by decide
/-- 95_test_vectors B14. -/
theorem test_deca_sum_does_not_wrap :
    after (one .lsb0 [0xAA, 0xBB, 0xCC, 0xDD] (.deca .le 4 0xFFFFFFFF 1)) =
      some ([0xAA, 0xBB, 0xCC, 0xDD], [0], some ⟨some 0, .outOfRange⟩) := by decide
/-- 95_test_vectors E10. -/
theorem test_encb_be_across_three_bytes :
    after (one .lsb0 [0xFF, 0xFF, 0xFF] (.encb .be 3 0 6 0xABC 12)) =
      some ([0x7F, 0xF5, 0xFC], [], some ⟨none, .ok⟩) := by decide
/-- 95_test_vectors E18 under MSB0. -/
theorem test_encb_overrun_writes_the_high_bits :
    after (one .msb0 [0x00, 0x00] (.encb .be 2 1 4 0xC5 8)) =
      some ([0x00, 0x0C], [], some ⟨none, .outOfRange⟩) := by decide
/-- 95_test_vectors F6 under MSB0. -/
theorem test_decb_be_reads_back :
    after (one .msb0 [0x00, 0xAF, 0x02] (.decb .be 3 0 6 12)) =
      some ([0x00, 0xAF, 0x02], [0x2BC], some ⟨some 0x2BC, .ok⟩) := by decide
/-- 95_test_vectors F14. -/
theorem test_decb_overrun_reads_zero_below :
    after (one .lsb0 [0x00, 0xF0] (.decb .be 2 1 4 8)) =
      some ([0x00, 0xF0], [0xF0], some ⟨some 0xF0, .outOfRange⟩) := by decide

/-! ## Witnesses: a state and operands that meet the hypotheses of each statement -/

/-- Four bytes under LSB0, the host with nothing to do. -/
def w4 : State := launch ⟨.lsb0, 32, true⟩ [0xAA, 0xBB, 0xCC, 0xDD] []

/-- The same under MSB0 and with no status output. -/
def m4 : State := launch ⟨.msb0, 32, false⟩ [0xAA, 0xBB, 0xCC, 0xDD] []

/-- The same with one move of the host to come. -/
def w4with (m : HostMove) : State := launch ⟨.lsb0, 32, true⟩ [0xAA, 0xBB, 0xCC, 0xDD] [m]

/-- The response of an outcome. -/
def rspOf (o : Host.Outcome State Fault Refusal) : Option Response :=
  match o with
  | .next t => t.rsp
  | _ => none

/-- The outcome is a next state. -/
def isNext (o : Host.Outcome State Fault Refusal) : Bool :=
  match o with
  | .next _ => true
  | _ => false

theorem exists_next {o : Host.Outcome State Fault Refusal} (h : isNext o = true) : ∃ t, o = .next t := by
  cases o with
  | next t => exact ⟨t, rfl⟩
  | fault => cases h
  | refused => cases h

theorem witness_DecodeAndEncodeAgree :
    WellFormed (.encb .be 0xFFFFFFFF 0xFFFFFFFF 7 0xFFFFFFFFFFFFFFFF 255) = true ∧
      decode 0x6#160 = .ok (.decb .le 0 0 0 0) ∧ (Instr.enca .le (2 ^ 40) 0 1 255).count < 2 ^ 8 := by decide

theorem witness_InvalidDescriptorsAreRefused :
    (w4with (.descriptor 0x40#160)).host = .descriptor 0x40#160 :: [] ∧
      decode 0x40#160 = .error .reservedBits ∧ decode 0x8#160 = .error .unusedBitOffset := by decide

theorem witness_StepRunsTheDecodedCommand :
    (w4with (.descriptor 0x6#160)).host = .descriptor 0x6#160 :: [] ∧
      decode 0x6#160 = .ok (.decb .le 0 0 0 0) ∧
      (w4with (.command ⟨0b001, 4, 0, 0, 1, 5⟩)).host = .command ⟨0b001, 4, 0, 0, 1, 5⟩ :: [] ∧
      portsFit w4.cfg.offW ⟨0b001, 4, 0, 0, 1, 5⟩ = true := by decide

/-- The largest values that fit ports of 32 bits, the smallest that do not, and a command that runs. -/
theorem witness_OffsetPortsAreOffwBitsWide :
    (w4with (.command ⟨0b010, 2 ^ 32, 0, 0, 1, 0⟩)).host = .command ⟨0b010, 2 ^ 32, 0, 0, 1, 0⟩ :: [] ∧
      2 ^ w4.cfg.offW ≤ 2 ^ 32 ∧ 2 ^ 32 - 1 < 2 ^ w4.cfg.offW ∧
      (w4with (.command ⟨0b010, 4, 2 ^ 32 - 1, 0, 1, 0⟩)).host = .command ⟨0b010, 4, 2 ^ 32 - 1, 0, 1, 0⟩ :: [] ∧
      4 < 2 ^ w4.cfg.offW ∧ 4 ≤ w4.cfg.memLen := by decide

theorem witness_StepMakesTheHostsOtherMoves :
    (w4with .reset).host = .reset :: [] ∧ (w4with (.writeByte 3 7)).host = .writeByte 3 7 :: [] ∧
      3 < (w4with (.writeByte 3 7)).cfg.memLen ∧ (w4with (.writeByte 4 7)).host = .writeByte 4 7 :: [] ∧
      (w4with (.writeByte 4 7)).cfg.memLen ≤ 4 ∧ w4.host = [] := by decide

theorem witness_StepKeepsTheInvariant :
    (w4with (.descriptor (encode (.encb .le 4 0 3 5 8)))).Inv ∧
      ∃ t, step (w4with (.descriptor (encode (.encb .le 4 0 3 5 8)))) = .next t :=
  ⟨⟨by decide, by decide, by decide, by decide, by intro st v h; cases h⟩, exists_next (by decide)⟩

theorem witness_StepKeepsParametersAndTakesOneMove :
    ∃ t, step (w4with (.descriptor (encode (.deca .le 4 0 2)))) = .next t :=
  exists_next (by decide)

theorem witness_StepStopsOnlyAtTheBoundary :
    moveAllowed w4.cfg (.descriptor (encode (.deca .le 4 0 2))) = true ∧
      moveAllowed w4.cfg (.descriptor (encode (.deca .le 5 0 2))) = false ∧
      moveAllowed w4.cfg (.descriptor 0x40#160) = false ∧
      moveAllowed w4.cfg (.command ⟨0b010, 4, 2 ^ 32, 0, 1, 0⟩) = false ∧ moveAllowed w4.cfg (.writeByte 4 0) = false ∧
      (w4with (.writeByte 4 0)).host = .writeByte 4 0 :: [] := by decide

theorem witness_RunOfTheHostsMovesEnds :
    ∀ m ∈ (launch ⟨.lsb0, 32, true⟩ [1, 2] [.writeByte 1 9, .reset, .descriptor (encode (.deca .le 2 0 2))]).host,
      moveAllowed { toBlockParams := ⟨.lsb0, 32, true⟩, memLen := 2 } m = true := by decide

theorem witness_BufferSizeGoverns :
    w4.cfg.memLen < (Instr.deca .le 5 0 2).bufferSize ∧ (Instr.deca .le 4 0 2).bufferSize ≤ w4.cfg.memLen ∧
      (Instr.deca .le 4 0 2).bufferSize ≤ 4 := by decide

/-- The premise of EncaWritesTheSpan, DecaReadsTheSpan, EncbWritesTheBits, DecbReadsTheBits,
EncodesKeepEverythingOutsideTheField and ResultsAreBounded, with each case of their conditions at its boundary. -/
theorem witness_buffer_fits :
    4 ≤ w4.cfg.memLen ∧ (2 + 2 ≤ 4 ∧ 2 ≤ 8) ∧ ¬(3 + 2 ≤ 4 ∧ 2 ≤ 8) ∧ ¬(0 + 9 ≤ 4 ∧ 9 ≤ 8) ∧
      (3 * 8 + 7) / 8 < 4 ∧ ¬(4 * 8 / 8 < 4) ∧ (64 : Nat) ≤ 64 ∧ 64 < 65 := by decide

theorem witness_EncodeFrame :
    isEncode (.enca .le 4 1 0xABCD 2) = true ∧ isEncode (.encb .le 4 1 3 5 8) = true ∧
      (∃ t, exec (.enca .le 4 1 0xABCD 2) w4 = .next t) ∧ (∃ t, exec (.encb .le 4 1 3 5 8) w4 = .next t) ∧
      0 ∉ footprint (.enca .le 4 1 0xABCD 2) ∧ 3 ∉ footprint (.encb .le 4 1 3 5 8) :=
  ⟨by decide, by decide, exists_next (by decide), exists_next (by decide), by decide, by decide⟩

theorem witness_DecodeFrame :
    isEncode (.deca .le 4 1 2) = false ∧ isEncode (.decb .le 4 1 3 8) = false ∧
      (∃ t, exec (.deca .le 4 1 2) w4 = .next t) ∧ ∃ t, exec (.decb .le 4 1 3 8) w4 = .next t :=
  ⟨by decide, by decide, exists_next (by decide), exists_next (by decide)⟩

/-- The premise of AccessesAreTheFootprint, ConditionClass and AccessByAccessRefinesTheAtomicStep, for each command. -/
theorem witness_each_command_fits :
    (Instr.enca .le 4 1 0xABCD 2).bufferSize ≤ w4.cfg.memLen ∧ (Instr.deca .be 4 2 2).bufferSize ≤ w4.cfg.memLen ∧
      (Instr.encb .le 4 3 4 5 8).bufferSize ≤ w4.cfg.memLen ∧ (Instr.decb .be 4 3 4 8).bufferSize ≤ w4.cfg.memLen := by
  decide

theorem witness_ResponsePortsShowTheCompletion :
    (w4with (.descriptor (encode (.deca .le 4 0 2)))).host = .descriptor (encode (.deca .le 4 0 2)) :: [] ∧
      WellFormed (.deca .le 4 0 2) = true ∧
      (∃ t, step (w4with (.descriptor (encode (.deca .le 4 0 2)))) = .next t) ∧
      (∃ t, step (w4with (.descriptor (encode (.enca .le 4 0 5 2)))) = .next t) ∧
      (∃ t, step (w4with (.command ⟨0b010, 4, 0, 0, 1, 0⟩)) = .next t) ∧
      decodePorts ⟨0b010, 4, 0, 0, 1, 0⟩ = .deca .le 4 0 1 ∧
      (∃ t, step (w4with .reset) = .next t) ∧ (∃ t, step (w4with (.writeByte 0 1)) = .next t) ∧
      ∃ t, step w4 = .next t :=
  ⟨by decide, by decide, exists_next (by decide), exists_next (by decide), exists_next (by decide), by decide,
    exists_next (by decide), exists_next (by decide), exists_next (by decide)⟩

theorem witness_StatusOutputIsInformational :
    (Instr.deca .le 4 0 2).bufferSize ≤ w4.cfg.memLen ∧ w4.cfg.hasStatus = true ∧
      (Instr.deca .le 4 0 2).bufferSize ≤ m4.cfg.memLen ∧ m4.cfg.hasStatus = false := by decide

theorem witness_OversizedWidthDoesNothing :
    (Instr.enca .le 4 0 5 9).bufferSize ≤ w4.cfg.memLen ∧ 8 < (Instr.enca .le 4 0 5 9).count ∧
      8 < (Instr.deca .le 4 0 9).count ∧ 64 < (Instr.encb .le 4 0 0 5 65).count ∧
      64 < (Instr.decb .le 4 0 0 65).count := by decide

theorem witness_ZeroCountDoesNothing :
    (Instr.enca .le 4 5 1 0).bufferSize ≤ w4.cfg.memLen ∧ (Instr.enca .le 4 5 1 0).count = 0 ∧
      (Instr.deca .le 4 4 0).count = 0 ∧ (Instr.encb .le 4 9 0 5 0).count = 0 ∧
      (Instr.decb .le 4 4 0 0).count = 0 := by decide

theorem witness_EncaIsAllOrNothing :
    4 ≤ w4.cfg.memLen ∧ 4 < 3 + 2 ∧ 8 < 9 ∧ (2 + 2 ≤ 4 ∧ 2 ≤ 8) := by decide

theorem witness_DecaIsZeroOnFailure :
    4 ≤ w4.cfg.memLen ∧ 4 < 3 + 2 ∧ 8 < 9 ∧ 4 ≤ (launch ⟨.lsb0, 32, true⟩ [1, 0, 0, 1] []).cfg.memLen ∧ 1 + 2 ≤ 4 ∧
      ∀ i, i < 2 → Memory.read (launch ⟨.lsb0, 32, true⟩ [1, 0, 0, 1] []).buf (1 + i) = 0 := by decide

/-- The premises of the two overrun statements and of RoundTripUnderOverrun: m = n, 0 < m < n and m = 0. -/
theorem witness_overrun :
    4 ≤ w4.cfg.memLen ∧ 8 ≤ 64 ∧ 8 = min 8 (8 * 4 - startBit 3 0) ∧ 4 = min 8 (8 * 4 - startBit 3 4) ∧
      0 = min 8 (8 * 4 - startBit 4 0) := by decide

theorem witness_BoundsNoOp :
    4 ≤ w4.cfg.memLen ∧ 4 < 3 + 2 ∧ 8 * 4 ≤ startBit 4 0 ∧ 64 < 65 ∧ 8 ≤ 64 ∧ startBit 3 4 < 8 * 4 ∧
      8 * 4 < startBit 3 4 + 8 := by decide

/-- 42_codec_laws R129: the mask at n = 64 is not that of a 64-bit machine shift. -/
theorem test_fieldMask_at_64 : fieldMask 64 = 0xFFFFFFFFFFFFFFFF ∧ fieldMask 12 = 0xFFF ∧ fieldMask 0 = 0 := by decide

/-- The premises of MaskIsTakenOverTheNaturals, with n = 64 and a field that ends at the buffer's end. -/
theorem witness_MaskIsTakenOverTheNaturals :
    9 ≤ (launch ⟨.lsb0, 32, true⟩ [1, 2, 3, 4, 5, 6, 7, 8, 9] []).cfg.memLen ∧ (64 : Nat) ≤ 64 ∧
      startBit 1 0 + 64 ≤ 8 * 9 ∧ startBit 0 4 + 64 ≤ 8 * 9 := by decide

/-- The premises of RoundTripOnTheBitPath and EndiannessSwapOnTheBitPath, the field ending at the buffer's end; and
of the closed forms under either `BITNUM`. -/
theorem witness_bit_field_inside :
    4 ≤ w4.cfg.memLen ∧ 20 ≤ 64 ∧ startBit 1 4 + 20 ≤ 8 * 4 ∧ w4.cfg.bitNum = .lsb0 ∧
      4 ≤ m4.cfg.memLen ∧ m4.cfg.bitNum = .msb0 ∧ 0 = 8 * 4 - startBit 1 4 - 20 ∧
      beInt m4.buf 4 / 2 ^ 0 % 2 ^ 20 = 0xBCCDD ∧ leInt w4.buf 4 / 2 ^ startBit 1 4 % 2 ^ 20 = 0xDDCCB := by
  decide

/-- The premises of RoundTripOnTheAlignedPath and EndiannessSymmetryOnTheAlignedPath. -/
theorem witness_aligned_field_inside : 4 ≤ w4.cfg.memLen ∧ 2 ≤ 8 ∧ 2 + 2 ≤ 4 := by decide

theorem witness_PartialBytePreservation :
    4 ≤ w4.cfg.memLen ∧ (3 : Fin 8).val + 2 ≤ 8 ∧ (3 : Fin 8).val + 5 ≤ 8 ∧ w4.cfg.bitNum = .lsb0 ∧
      4 ≤ m4.cfg.memLen := by decide

theorem witness_PurityAndIdempotence :
    (Instr.deca .le 4 0 2).bufferSize ≤ w4.cfg.memLen ∧ isEncode (.deca .le 4 0 2) = false ∧
      (Instr.encb .be 4 3 4 5 8).bufferSize ≤ w4.cfg.memLen ∧ isEncode (.encb .be 4 3 4 5 8) = true ∧
      4 ≤ w4.cfg.memLen := by decide

/-- The premises of PathsAgreeAtByteBoundaries and PathsDifferByBitReversal, under either `BITNUM`. -/
theorem witness_byte_boundaries :
    4 ≤ w4.cfg.memLen ∧ 2 ≤ 8 ∧ 2 + 2 ≤ 4 ∧
      Endian.le = (match w4.cfg.bitNum with | .lsb0 => .le | .msb0 => .be) ∧
      Endian.be = (match m4.cfg.bitNum with | .lsb0 => .le | .msb0 => .be) ∧
      Endian.be = (match w4.cfg.bitNum with | .lsb0 => .be | .msb0 => .le) ∧
      Endian.le = (match m4.cfg.bitNum with | .lsb0 => .be | .msb0 => .le) := by decide

/-- Two states that agree on bytes 1 and 2, so on the bits of a field inside them, and differ in byte 0. -/
theorem witness_DecodeDependsOnTheFieldOnly :
    4 ≤ w4.cfg.memLen ∧ (launch ⟨.lsb0, 32, true⟩ [0x11, 0xBB, 0xCC, 0x22] []).cfg = w4.cfg ∧
      (∀ a, a < 3 → 1 ≤ a →
        Memory.read (launch ⟨.lsb0, 32, true⟩ [0x11, 0xBB, 0xCC, 0x22] []).buf a = Memory.read w4.buf a) ∧
      (∀ pos, pos < startBit 1 3 + 12 → startBit 1 3 ≤ pos →
        bufBit .lsb0 (launch ⟨.lsb0, 32, true⟩ [0x11, 0xBB, 0xCC, 0x22] []).buf pos = bufBit .lsb0 w4.buf pos) := by
  decide

/-- An instance under LSB0 with a status output, and one under MSB0 without, that have taken a command. -/
def busy (i : Instr) : Codec := (Codec.reset ⟨.lsb0, 32, true⟩).take i
def busyMsb0 (i : Instr) : Codec := (Codec.reset ⟨.msb0, 8, false⟩).take i

theorem witness_CommandsThatKeepTheContractSerialize :
    (Instr.encb .le 4 0 3 5 8).bufferSize ≤ w4.cfg.memLen ∧ (Instr.decb .le 4 2 0 9).bufferSize ≤ w4.cfg.memLen ∧
      keepsContract (.encb .le 4 0 3 5 8) (.decb .le 4 2 0 9) = true ∧
      keepsContract (.deca .le 4 0 2) (.deca .le 4 1 2) = true ∧
      (Shared.run (List.replicate 16 0 ++ List.replicate 9 1)
        ⟨w4.cfg.memLen, w4.buf, [busy (.encb .le 4 0 3 5 8), busyMsb0 (.decb .le 4 2 0 9)]⟩).allIdle = true := by
  decide

/-- The race of 95_test_vectors. -/
def race : Shared := ⟨1, [], [busy (.encb .le 1 0 0 1 1), busy (.encb .le 1 0 1 1 1)]⟩

/-- Its schedules RA WA RB WB, RA RB WA WB and RA RB WB WA: each of the three outcomes. -/
theorem witness_RaceHasExactlyThreeOutcomes :
    ((Shared.run [0, 0, 1, 1] race).allIdle = true ∧ Memory.read (Shared.run [0, 0, 1, 1] race).mem 0 = 0x03) ∧
    ((Shared.run [0, 1, 0, 1] race).allIdle = true ∧ Memory.read (Shared.run [0, 1, 0, 1] race).mem 0 = 0x02) ∧
    ((Shared.run [0, 1, 1, 0] race).allIdle = true ∧ Memory.read (Shared.run [0, 1, 1, 0] race).mem 0 = 0x01) := by
  decide

/-- An idle instance and one with a command in progress on one buffer. -/
def pair : Shared := ⟨4, [], [Codec.reset ⟨.msb0, 8, false⟩, busy (.deca .le 4 0 2)]⟩

theorem witness_OneCommandAtATime :
    pair.codecs[1]? = some (busy (.deca .le 4 0 2)) ∧ (busy (.deca .le 4 0 2)).cmdReady = false ∧
    pair.codecs[0]? = some (Codec.reset ⟨.msb0, 8, false⟩) ∧ (Codec.reset ⟨.msb0, 8, false⟩).cmdReady = true ∧
    (Instr.deca .le 4 0 1).bufferSize ≤ pair.memLen ∧ portsFit 8 ⟨0b010, 4, 0, 0, 1, 0⟩ = true ∧
    decodePorts ⟨0b010, 4, 0, 0, 1, 0⟩ = .deca .le 4 0 1 ∧
    decode (encode (.deca .le 4 0 1)) = .ok (.deca .le 4 0 1) ∧
    portsFit 32 ⟨0b010, 4, 2 ^ 32, 0, 1, 0⟩ = false ∧ portsFit 32 ⟨0b010, 4, 2 ^ 32 - 1, 0, 1, 0⟩ = true ∧
    portsFit 8 ⟨0b010, 256, 0, 0, 1, 0⟩ = false ∧ decode 0x40#160 = .error .reservedBits := by decide

theorem witness_InstancesAreReadyAfterReset :
    pair.codecs[0]? = some (Codec.reset ⟨.msb0, 8, false⟩) ∧ (Codec.reset ⟨.msb0, 8, false⟩).cmdReady = true ∧
    pair.codecs[1]? = some (busy (.deca .le 4 0 2)) ∧ (busy (.deca .le 4 0 2)).cmdReady = false := by decide

/-- The first turn of a DECA of two bytes does not complete it, the only turn of a DECA of one byte does. -/
theorem witness_InstanceRespondsOnCompletion :
    pair.codecs[1]? = some (busy (.deca .le 4 0 2)) ∧
    (busy (.deca .le 4 0 2)).command = some (.issue (.deca .le 4 0 2)) ∧
    ((InFlight.issue (.deca .le 4 0 2)).access .lsb0 []).1.done = false ∧
    ((InFlight.issue (.deca .le 4 0 1)).access .lsb0 []).1.done = true := by decide

theorem witness_InstancesShareOnlyTheBuffer :
    pair.event (.advance 1) = .next (pair.advance 1) ∧ (SharedEvent.advance 1).target ≠ some 0 ∧
      (match pair.event (.reset 0) with | .next _ => true | _ => false) = true := by
  exact ⟨rfl, by decide, by decide⟩

theorem witness_SharedEventsKeepTheInvariant :
    pair.Inv ∧ pair.event (.advance 1) = .next (pair.advance 1) ∧
      pair.event (.hostWrite 3 7) = .next { pair with mem := Memory.write pair.mem 3 7 } := by
  refine ⟨⟨by decide, by decide, ?_⟩, rfl, rfl⟩
  intro x hx
  rcases List.mem_cons.1 hx with rfl | hx
  · exact ⟨fun f h => (by cases h), fun r h => (by cases h)⟩
  · rcases List.mem_singleton.1 hx with rfl
    exact ⟨fun f h => (by cases h; decide), fun r h => (by cases h)⟩

end Sys2Proof.Tests
end

/-! ## 00_scope: the offset ports

What `exec` completes in, which accesses it makes on the buffer port, and the step that takes a command from the
ports; then O7 from these. -/

namespace Sys2Proof.Machine

/-! ### The state a command completes in -/

/-- The state in which a command completes once its `buffer_size` is admitted (20_memory R31). -/
def completion (i : Instr) (s : State) : State :=
  match i with
  | .enca e size off v n => (encaBytes e size off v n s).completeEncode (condClass i)
  | .deca e size off n => (decaBytes e size off n s).2.completeDecode (condClass i)
      (BitVec.ofNat 64 (decaBytes e size off n s).1)
  | .encb e size off bit v n => (encbBits e size (startBit off bit) v n s).completeEncode (condClass i)
  | .decb e size off bit n => (decbBits e size (startBit off bit) n s).2.completeDecode (condClass i)
      (BitVec.ofNat 64 (decbBits e size (startBit off bit) n s).1)

/-- 20_memory R31: the test against `MEMLEN` is all that stands between a command and its completion. -/
theorem exec_eq_requireBuffer (i : Instr) (s : State) :
    exec i s = s.requireBuffer i.bufferSize (completion i s) := by
  cases i <;> rfl

theorem exec_of_bufferSize_le {i : Instr} {s : State} (h : i.bufferSize ≤ s.cfg.memLen) :
    exec i s = .next (completion i s) := by
  rw [exec_eq_requireBuffer, State.requireBuffer_of_le h]

/-! ### The accesses of a command -/

theorem footprint_enca (e : Endian) (size off : Nat) (v : Value) (n : Nat) :
    footprint (.enca e size off v n) =
      if off + n ≤ size ∧ n ≤ 8 then (List.range n).map (off + ·) else [] := by
  simp only [footprint, ← spanFail_eq_false, ← Bool.not_eq_true, ite_not]

theorem footprint_deca (e : Endian) (size off n : Nat) :
    footprint (.deca e size off n) =
      if off + n ≤ size ∧ n ≤ 8 then (List.range n).map (off + ·) else [] :=
  footprint_enca e size off 0 n

theorem footprint_encb (e : Endian) (size off : Nat) (bit : Fin 8) (v : Value) (n : Nat) :
    footprint (.encb e size off bit v n) =
      if n ≤ 64 then ((List.range n).map fun i => byteIndex (startBit off bit + i)).filter (· < size) else [] := by
  simp only [footprint, ← widthFail_eq_false, ← Bool.not_eq_true, ite_not]

theorem footprint_decb (e : Endian) (size off : Nat) (bit : Fin 8) (n : Nat) :
    footprint (.decb e size off bit n) =
      if n ≤ 64 then ((List.range n).map fun i => byteIndex (startBit off bit + i)).filter (· < size) else [] :=
  footprint_encb e size off bit 0 n

/-- 20_memory R31: on the aligned path the span test, on the bit path the test of each bit, keeps the footprint
below `buffer_size`. -/
theorem lt_bufferSize_of_mem_footprint {i : Instr} {a : Nat} (h : a ∈ footprint i) : a < i.bufferSize := by
  have aligned {size off n : Nat}
      (h : a ∈ if off + n ≤ size ∧ n ≤ 8 then (List.range n).map (off + ·) else []) : a < size := by
    split at h
    next hspan =>
      obtain ⟨k, hk, rfl⟩ := List.mem_map.mp h
      have := List.mem_range.mp hk
      omega
    next => cases h
  have bits {size n : Nat} {l : List Nat} (h : a ∈ if n ≤ 64 then l.filter (· < size) else []) : a < size := by
    split at h
    · simpa using (List.mem_filter.mp h).2
    · cases h
  cases i with
  | enca e size off v n => exact aligned (footprint_enca e size off v n ▸ h)
  | deca e size off n => exact aligned (footprint_deca e size off n ▸ h)
  | encb e size off bit v n => exact bits (footprint_encb e size off bit v n ▸ h)
  | decb e size off bit n => exact bits (footprint_decb e size off bit n ▸ h)

/-- 20_memory R38 to R40: the accesses of a command as `mem_we` and `mem_addr` show them, in order: ENCB reads and
then writes the byte of each bit, the others make one access for each entry of the footprint. -/
def accessPlan (i : Instr) : List (Bool × Nat) :=
  match i with
  | .encb .. => (footprint i).flatMap fun a => [(false, a), (true, a)]
  | .enca .. | .deca .. | .decb .. => (footprint i).map fun a => (isEncode i, a)

theorem mem_footprint_of_mem_accessPlan {i : Instr} {x : Bool × Nat} (h : x ∈ accessPlan i) :
    x.2 ∈ footprint i := by
  cases i with
  | encb e size off bit v n =>
    obtain ⟨a, ha, hx⟩ := List.mem_flatMap.mp h
    have : x.2 = a := by
      simp only [List.mem_cons, List.not_mem_nil, or_false] at hx
      rcases hx with rfl | rfl <;> rfl
    exact this ▸ ha
  | enca | deca | decb =>
    obtain ⟨a, ha, rfl⟩ := List.mem_map.mp h
    exact ha

/-- A completed command has made exactly the accesses of its plan. -/
theorem completion_bus (i : Instr) (s : State) :
    ∃ accesses, (completion i s).bus = s.bus ++ accesses ∧
      accesses.map (fun x => (x.isWrite, x.addr)) = accessPlan i := by
  cases i with
  | enca e size off v n =>
    refine ⟨_, congrArg State.bus (encaBytes_eq e size off v n s), ?_⟩
    rw [accessPlan, footprint_enca]
    split <;> simp [isEncode]
  | deca e size off n =>
    refine ⟨_, congrArg (fun x => x.2.bus) (decaBytes_eq e size off n s), ?_⟩
    rw [accessPlan, footprint_deca]
    split <;> simp [isEncode]
  | encb e size off bit v n =>
    rw [accessPlan, footprint_encb]
    rcases encbBits_cases e size (startBit off bit) v n s with ⟨hn, he⟩ | ⟨hn, he⟩
    · exact ⟨[], by simp [completion, he], by simp [Nat.not_le.mpr hn]⟩
    · obtain ⟨acc, hbus, hplan⟩ := encbLoop_bus e size (startBit off bit) v n n s
      exact ⟨acc, by simp [completion, he, hbus], by rw [if_pos hn, hplan]⟩
  | decb e size off bit n =>
    refine ⟨_, congrArg (fun x => x.2.bus) (decbBits_eq e size (startBit off bit) n s), ?_⟩
    rw [accessPlan, footprint_decb]
    split <;> simp [isEncode, Function.comp_def]

/-- A completed command has added only accesses below its `buffer_size`. -/
theorem completion_bus_below (i : Instr) (s : State) :
    ∃ accesses, (completion i s).bus = s.bus ++ accesses ∧ ∀ x ∈ accesses, x.addr < i.bufferSize := by
  obtain ⟨acc, hbus, hplan⟩ := completion_bus i s
  refine ⟨acc, hbus, fun x hx => ?_⟩
  have hmem : (x.isWrite, x.addr) ∈ accessPlan i := hplan ▸ List.mem_map_of_mem hx
  exact lt_bufferSize_of_mem_footprint (mem_footprint_of_mem_accessPlan hmem)

/-! ### A command on the ports -/

@[simp] theorem decodePorts_bufferSize (p : CmdPorts) : (decodePorts p).bufferSize = p.bufferSize := by
  unfold decodePorts
  split <;> rfl

theorem step_of_host_cons {s : State} {m : HostMove} {rest : List HostMove} (h : s.host = m :: rest) :
    step s = hostMove m (s.begin rest) := by
  simp only [step, h]

theorem step_command_of_not_fit {s : State} {p : CmdPorts} {rest : List HostMove}
    (h : s.host = .command p :: rest) (hfit : portsFit s.cfg.offW p = false) :
    step s = .refused .notPresentable := by
  rw [step_of_host_cons h]
  exact issuePorts_of_not_fit hfit

theorem step_command_of_fit {s : State} {p : CmdPorts} {rest : List HostMove}
    (h : s.host = .command p :: rest) (hfit : portsFit s.cfg.offW p = true) :
    step s = exec (decodePorts p) (s.begin rest) := by
  rw [step_of_host_cons h]
  exact issuePorts_of_fit hfit

/-- Settles O7: port values that do not fit are refused before any command runs; one that fits and is admitted
completes, with accesses below `buffer_size` only, which is itself below 2^OFFW. -/
theorem offsetPortsAreOffwBitsWide : Obligations.OffsetPortsAreOffwBitsWide := by
  intro s p rest hhost
  refine ⟨fun hwide => step_command_of_not_fit hhost (portsFit_eq_false.mpr hwide), fun hsize hoff hmem => ?_⟩
  have hstep : step s = .next (completion (decodePorts p) (s.begin rest)) := by
    rw [step_command_of_fit hhost (portsFit_iff.mpr ⟨hsize, hoff⟩)]
    exact exec_of_bufferSize_le (by simpa using hmem)
  obtain ⟨acc, hbus, hbelow⟩ := completion_bus_below (decodePorts p) (s.begin rest)
  refine ⟨_, hstep, fun x hx => ?_⟩
  have hlt : x.addr < p.bufferSize := by
    rw [hbus, State.begin_bus, List.nil_append] at hx
    simpa using hbelow x hx
  exact ⟨hlt, hlt.trans hsize⟩

end Sys2Proof.Machine

/-! ## 10_state: what every step keeps

What a completed command leaves unchanged, what a step that answers a next state can have done, and the invariant
of the machine under each; then O10 and O11 from these. -/

namespace Sys2Proof.Machine

/-! ### What a completed command changes -/

/-- 10_state R14: a completed command changes the buffer, its accesses, its response and the results; a decode
delivers one result, in the response and as the host's last, and an encode none. -/
theorem completion_eq (i : Instr) (s : State) :
    ∃ result : Option Value, result.isNone = isEncode i ∧
      completion i s =
        { s with
          buf := (completion i s).buf
          bus := (completion i s).bus
          rsp := some { result := result, status := condClass i }
          results := s.results ++ result.toList } := by
  cases i with
  | enca e size off v n =>
    refine ⟨none, rfl, ?_⟩
    simp only [completion]
    rw [encaBytes_eq]
    simp [State.completeEncode]
  | deca e size off n =>
    refine ⟨some (BitVec.ofNat 64 (decaBytes e size off n s).1), rfl, ?_⟩
    simp only [completion]
    rw [decaBytes_eq]
    rfl
  | encb e size off bit v n =>
    refine ⟨none, rfl, ?_⟩
    simp only [completion]
    rw [encbBits_eq]
    simp [State.completeEncode]
  | decb e size off bit n =>
    refine ⟨some (BitVec.ofNat 64 (decbBits e size (startBit off bit) n s).1), rfl, ?_⟩
    simp only [completion]
    rw [decbBits_eq]
    rfl

@[simp] theorem completion_cfg (i : Instr) (s : State) : (completion i s).cfg = s.cfg := by
  obtain ⟨_, _, h⟩ := completion_eq i s
  rw [h]

@[simp] theorem completion_host (i : Instr) (s : State) : (completion i s).host = s.host := by
  obtain ⟨_, _, h⟩ := completion_eq i s
  rw [h]

/-- What an encode and a decode deliver, as one fact: the response's result, if any, is the one result added. -/
theorem completion_delivers (i : Instr) (s : State) :
    ∃ result : Option Value, (completion i s).rsp = some { result := result, status := condClass i } ∧
      (completion i s).results = s.results ++ result.toList := by
  obtain ⟨result, _, h⟩ := completion_eq i s
  exact ⟨result, congrArg State.rsp h, congrArg State.results h⟩

/-- The rule of a command's buffer: what holds of it before and is kept by every write below `buffer_size` holds
after (20_memory R31). -/
theorem completion_buf_rule (P : Memory → Prop) {i : Instr} {s : State} (h₀ : P s.buf)
    (hwrite : ∀ m a b, a < i.bufferSize → P m → P (Memory.write m a b)) : P (completion i s).buf := by
  cases i with
  | enca e size off v n =>
    change P (encaBytes e size off v n s).buf
    rcases encaBytes_cases e size off v n s with ⟨_, he⟩ | ⟨⟨hspan, _⟩, he⟩ <;> rw [he]
    · exact h₀
    · refine ascend_rule (fun _ (t : State) => P t.buf) h₀ fun k t hk ht => hwrite _ _ _ ?_ ht
      exact (Nat.add_lt_add_left hk off).trans_le hspan
  | encb e size off bit v n =>
    change P (encbBits e size (startBit off bit) v n s).buf
    rcases encbBits_cases e size (startBit off bit) v n s with ⟨_, he⟩ | ⟨_, he⟩ <;> rw [he]
    · exact h₀
    · refine ascend_rule (fun _ (t : State) => P t.buf) h₀ fun k t _ ht => ?_
      by_cases hin : byteIndex (startBit off bit + k) < size
      · rw [encbBit_write hin]
        exact hwrite _ _ _ hin ht
      · rwa [encbBit_skip (Nat.le_of_not_lt hin)]
  | deca e size off n =>
    change P (decaBytes e size off n s).2.buf
    rwa [decaBytes_eq]
  | decb e size off bit n =>
    change P (decbBits e size (startBit off bit) n s).2.buf
    rwa [decbBits_eq]

/-! ### What a step can do -/

theorem exec_eq_next {i : Instr} {s t : State} (h : exec i s = .next t) :
    i.bufferSize ≤ s.cfg.memLen ∧ t = completion i s :=
  State.requireBuffer_eq_next (exec_eq_requireBuffer i s ▸ h)

/-- What a move of the host presents to the block, on the ports or as a descriptor; the other moves present no
command. -/
def HostMove.presents (offW : Nat) : HostMove → Option (Except Refusal Instr)
  | .command p => some (portsCommand offW p)
  | .descriptor w => some (descriptorCommand w)
  | .writeByte _ _ => none
  | .reset => none

theorem hostMove_of_presents {m : HostMove} {s : State} {c : Except Refusal Instr}
    (h : m.presents s.cfg.offW = some c) : hostMove m s = runPresented c s := by
  cases m with
  | command p => cases h; rfl
  | descriptor w => cases h; rfl
  | writeByte a b => cases h
  | reset => cases h

theorem runPresented_eq_next {c : Except Refusal Instr} {s t : State} (h : runPresented c s = .next t) :
    ∃ i, c = .ok i ∧ i.bufferSize ≤ s.cfg.memLen ∧ t = completion i s := by
  cases c with
  | ok i => exact ⟨i, rfl, exec_eq_next h⟩
  | error why => cases h

theorem hostWrite_eq_next {a : Nat} {b : Byte} {s t : State} (h : hostWrite a b s = .next t) :
    a < s.cfg.memLen ∧ t = { s with buf := Memory.write s.buf a b } := by
  unfold hostWrite at h
  split at h
  next ha => exact ⟨ha, by injection h with h; exact h.symm⟩
  next => cases h

/-- 70_reset R183, R188: a step that answers has taken the first of the host's moves and idled or been reset,
written one byte of the buffer, or completed an admitted command. -/
theorem step_cases {s t : State} (h : step s = .next t) :
    ((s.host.head? = none ∨ s.host.head? = some .reset) ∧ t = s.begin s.host.tail) ∨
    (∃ a b, s.host.head? = some (.writeByte a b) ∧ a < s.cfg.memLen ∧
      t = { s.begin s.host.tail with buf := Memory.write s.buf a b }) ∨
    ∃ i, s.host.head?.bind (·.presents s.cfg.offW) = some (.ok i) ∧ i.bufferSize ≤ s.cfg.memLen ∧
      t = completion i (s.begin s.host.tail) := by
  have command {m : HostMove} {rest : List HostMove} {c : Except Refusal Instr}
      (hp : m.presents s.cfg.offW = some c) (hmove : hostMove m (s.begin rest) = .next t) :
      ∃ i, m.presents s.cfg.offW = some (.ok i) ∧ i.bufferSize ≤ s.cfg.memLen ∧ t = completion i (s.begin rest) := by
    rw [hostMove_of_presents (s := s.begin rest) hp] at hmove
    obtain ⟨i, rfl, hsize, ht⟩ := runPresented_eq_next hmove
    exact ⟨i, hp, hsize, ht⟩
  match hhost : s.host with
  | [] =>
    simp only [step, hhost, Host.Outcome.next.injEq] at h
    exact .inl ⟨.inl rfl, h.symm⟩
  | m :: rest =>
    rw [step_of_host_cons hhost] at h
    cases m with
    | reset =>
      injection h with h
      exact .inl ⟨.inr rfl, h.symm⟩
    | writeByte a b =>
      obtain ⟨ha, ht⟩ := hostWrite_eq_next h
      exact .inr (.inl ⟨a, b, rfl, ha, ht⟩)
    | command p => exact .inr (.inr (command rfl h))
    | descriptor w => exact .inr (.inr (command rfl h))

/-! ### The invariant -/

/-- 30_encoding R63: what every step does first drops the response and the accesses, so it keeps the invariant. -/
theorem State.Inv.begin {s : State} (h : s.Inv) (rest : List HostMove) : (s.begin rest).Inv := by
  obtain ⟨hoffW, hwf, hbelow, _, _⟩ := h
  exact ⟨hoffW, hwf, hbelow, by simp, by simp⟩

theorem State.Inv.writeByte {s : State} (h : s.Inv) {a : Nat} (ha : a < s.cfg.memLen) (b : Byte) :
    State.Inv { s with buf := Memory.write s.buf a b } := by
  obtain ⟨hoffW, hwf, hbelow, hbus, hrsp⟩ := h
  exact ⟨hoffW, Memory.wf_write a b hwf, Memory.below_write b ha hbelow, hbus, hrsp⟩

/-- An admitted command writes and accesses bytes below `buffer_size` only, so below `MEMLEN` (20_memory R31), and
the result it delivers is the one it adds. -/
theorem State.Inv.completion {s : State} (h : s.Inv) {i : Instr} (hsize : i.bufferSize ≤ s.cfg.memLen) :
    (completion i s).Inv := by
  obtain ⟨hoffW, hwf, hbelow, hbus, _⟩ := h
  refine ⟨by simpa using hoffW, ?_, ?_, ?_, ?_⟩
  · exact completion_buf_rule (Memory.wf · = true) hwf fun _ a b _ => Memory.wf_write a b
  · rw [completion_cfg]
    exact completion_buf_rule (Memory.below s.cfg.memLen · = true) hbelow
      fun _ _ b ha => Memory.below_write b (ha.trans_le hsize)
  · intro x hx
    obtain ⟨acc, hacc, haddr⟩ := completion_bus_below i s
    rw [hacc] at hx
    rw [completion_cfg]
    rcases List.mem_append.mp hx with hx | hx
    · exact hbus x hx
    · exact (haddr x hx).trans_le hsize
  · intro st v hv
    obtain ⟨result, hrsp, hresults⟩ := completion_delivers i s
    obtain rfl : result = some v := by
      rw [hrsp] at hv
      injection hv with hv
      exact congrArg Response.result hv
    simp [hresults]

/-- Settles O10: idling and reset drop the response and the accesses, a host write is inside the buffer, and a
command is admitted; each of the three keeps the invariant. -/
theorem stepKeepsTheInvariant : Obligations.StepKeepsTheInvariant := by
  intro s t hs hstep
  have hbegin : (s.begin s.host.tail).Inv := hs.begin _
  rcases step_cases hstep with ⟨_, rfl⟩ | ⟨a, b, _, ha, rfl⟩ | ⟨i, _, hsize, rfl⟩
  · exact hbegin
  · exact hbegin.writeByte ha b
  · exact hbegin.completion hsize

/-- Settles O11: no case of a step touches the parameters or the moves that follow the first, and only a decode adds
to the results, one. -/
theorem stepKeepsParametersAndTakesOneMove : Obligations.StepKeepsParametersAndTakesOneMove := by
  intro s t hstep
  rcases step_cases hstep with ⟨_, rfl⟩ | ⟨a, b, _, _, rfl⟩ | ⟨i, _, _, rfl⟩
  · exact ⟨rfl, rfl, .inl rfl⟩
  · exact ⟨rfl, rfl, .inl rfl⟩
  · obtain ⟨result, _, hresults⟩ := completion_delivers i (s.begin s.host.tail)
    refine ⟨by simp, by simp, ?_⟩
    cases result with
    | none => exact .inl (by simp [hresults])
    | some r => exact .inr ⟨r, by simp [hresults]⟩

end Sys2Proof.Machine


/-! ## 20_memory: the buffer under commands, accesses and codecs

The invariant of several codecs, the bytes a command accesses and depends on, and a command as a sequence of
single accesses; then O55, O6, O14, O22, O47, O48, O49 and O50 from these. -/

namespace Sys2Proof.Machine

/-! ### One access, per command -/

section access

variable {bn : BitNum} {e : Endian} {size off : Nat} {bit : Fin 8} {v : Value} {n k acc : Nat} {held : Option Byte}
  {m : Memory}

theorem InFlight.not_done {i : Instr} (hk : k < activeTurns i) : (InFlight.mk i k held acc).done = false :=
  decide_eq_false (Nat.not_le.mpr hk)

theorem InFlight.access_enca (hk : k < activeTurns (.enca e size off v n)) :
    InFlight.access bn ⟨.enca e size off v n, k, held, acc⟩ m =
      (⟨.enca e size off v n, k + 1, held, acc⟩, Memory.write m (off + k) (valueByte v (select e n k))) := by
  simp [InFlight.access, InFlight.not_done hk]

theorem InFlight.access_deca (hk : k < activeTurns (.deca e size off n)) :
    InFlight.access bn ⟨.deca e size off n, k, held, acc⟩ m =
      (⟨.deca e size off n, k + 1, held, acc + (Memory.read m (off + k)).toNat * 2 ^ (8 * select e n k)⟩, m) := by
  simp [InFlight.access, InFlight.not_done hk]

/-- 20_memory R39: ENCB's read of the bit's byte. -/
theorem InFlight.access_encb_read (hk : k < activeTurns (.encb e size off bit v n)) :
    InFlight.access bn ⟨.encb e size off bit v n, k, none, acc⟩ m =
      (⟨.encb e size off bit v n, k, some (Memory.read m (byteIndex (startBit off bit + k))), acc⟩, m) := by
  simp [InFlight.access, InFlight.not_done hk]

/-- 20_memory R39: ENCB's write of the byte it holds. -/
theorem InFlight.access_encb_write {b : Byte} (hk : k < activeTurns (.encb e size off bit v n)) :
    InFlight.access bn ⟨.encb e size off bit v n, k, some b, acc⟩ m =
      (⟨.encb e size off bit v n, k + 1, none, acc⟩,
        Memory.write m (byteIndex (startBit off bit + k))
          (setBit bn b (bitIndex (startBit off bit + k)) (valueBit v (select e n k)))) := by
  simp [InFlight.access, InFlight.not_done hk]

theorem InFlight.access_decb (hk : k < activeTurns (.decb e size off bit n)) :
    InFlight.access bn ⟨.decb e size off bit n, k, held, acc⟩ m =
      (⟨.decb e size off bit n, k + 1, held,
        acc + (bufBit bn m (startBit off bit + k)).toNat * 2 ^ select e n k⟩, m) := by
  simp [InFlight.access, InFlight.not_done hk, bufBit]

end access

/-! ### The invariant of several codecs -/

/-- 20_memory R39: the only thing an access can do to the buffer is one write to a byte of the footprint. -/
theorem InFlight.access_mem_cases (bn : BitNum) (f : InFlight) (m : Memory) :
    (f.access bn m).2 = m ∨ ∃ a ∈ footprint f.cmd, ∃ b, (f.access bn m).2 = Memory.write m a b := by
  cases hd : f.done with
  | true => exact .inl (by rw [InFlight.access_of_done bn m hd])
  | false =>
    have hidx := InFlight.idx_lt hd
    obtain ⟨cmd, idx, held, acc⟩ := f
    cases cmd with
    | enca e size off v n =>
      exact .inr ⟨off + idx, mem_footprint_aligned (i := idx) rfl hidx, _,
        congrArg Prod.snd (InFlight.access_enca hidx)⟩
    | encb e size off bit v n =>
      cases held with
      | none => exact .inl (congrArg Prod.snd (InFlight.access_encb_read hidx))
      | some b =>
        exact .inr ⟨_, mem_footprint_bits (i := idx) rfl hidx, _, congrArg Prod.snd (InFlight.access_encb_write hidx)⟩
    | deca | decb => exact .inl (InFlight.access_decode bn _ m rfl)

/-- The rule of an access: what holds of the buffer and is kept by every write below `buffer_size` holds after. -/
theorem InFlight.access_mem_rule (P : Memory → Prop) (bn : BitNum) {f : InFlight} {m : Memory} (h₀ : P m)
    (hwrite : ∀ a b, a < f.cmd.bufferSize → P (Memory.write m a b)) : P (f.access bn m).2 := by
  rcases f.access_mem_cases bn m with h | ⟨a, ha, b, h⟩ <;> rw [h]
  · exact h₀
  · exact hwrite a b (lt_bufferSize_of_mem_footprint ha)

/-- What the invariant says of one codec on a buffer of `memLen` bytes. -/
def Codec.Sound (memLen : Nat) (x : Codec) : Prop :=
  (∀ f, x.command = some f → f.cmd.bufferSize ≤ memLen) ∧ ∀ r, x.rsp = some r → x.given.getLast? = some r

theorem Shared.inv_iff (y : Shared) :
    y.Inv ↔ Memory.wf y.mem = true ∧ Memory.below y.memLen y.mem = true ∧ ∀ x ∈ y.codecs, x.Sound y.memLen :=
  Iff.rfl

/-- A turn keeps the command's operands, and a response it shows is the one it gives. -/
theorem Codec.Sound.advance {memLen : Nat} {x : Codec} (h : x.Sound memLen) (m : Memory) :
    (x.advance m).1.Sound memLen := by
  obtain ⟨hcmd, _⟩ := h
  rcases x.advance_cases m with ⟨hc, he⟩ | ⟨f, hc, _, he⟩ | ⟨f, hc, _, he⟩ <;> rw [he]
  · exact ⟨hcmd, by simp⟩
  · exact ⟨by simp, by simp⟩
  · refine ⟨fun g hg => ?_, by simp⟩
    obtain rfl : (f.access x.params.bitNum m).1 = g := by simpa using hg
    simpa [InFlight.access_cmd] using hcmd f hc

/-- Replacing one codec by a sound one keeps all of them sound. -/
theorem Shared.sound_setCodec {y : Shared} (h : ∀ x ∈ y.codecs, x.Sound y.memLen) {x : Codec}
    (hx : x.Sound y.memLen) (k : Nat) : ∀ z ∈ (y.setCodec k x).codecs, z.Sound y.memLen := by
  intro z hz
  rcases List.mem_or_eq_of_mem_set hz with hz | rfl
  · exact h z hz
  · exact hx

/-- A turn writes below the `buffer_size` of an admitted command, so inside the buffer. -/
theorem Shared.Inv.advance {y : Shared} (h : y.Inv) (k : Nat) : (y.advance k).Inv := by
  obtain ⟨hwf, hbelow, hcodecs⟩ := y.inv_iff.mp h
  unfold Shared.advance
  split
  next => exact h
  next x hx =>
    have hsound := hcodecs x (List.mem_of_getElem? hx)
    have hmem : Memory.wf (x.advance y.mem).2 = true ∧ Memory.below y.memLen (x.advance y.mem).2 = true := by
      have turn {f : InFlight} (hc : x.command = some f) :=
        InFlight.access_mem_rule (fun m => Memory.wf m = true ∧ Memory.below y.memLen m = true) x.params.bitNum
          ⟨hwf, hbelow⟩ fun _ b ha =>
            ⟨Memory.wf_write _ b hwf, Memory.below_write b (ha.trans_le (hsound.1 f hc)) hbelow⟩
      rcases x.advance_cases y.mem with ⟨_, he⟩ | ⟨f, hc, _, he⟩ | ⟨f, hc, _, he⟩ <;> rw [he]
      · exact ⟨hwf, hbelow⟩
      · exact turn hc
      · exact turn hc
    exact ⟨hmem.1, hmem.2, Shared.sound_setCodec hcodecs (hsound.advance y.mem) k⟩

/-- Settles O55: an event is a turn, a host write inside the buffer, an admitted command or a reset, and each keeps
the invariant. -/
theorem sharedEventsKeepTheInvariant : Obligations.SharedEventsKeepTheInvariant := by
  intro y y' ev hy hev
  obtain ⟨hwf, hbelow, hcodecs⟩ := y.inv_iff.mp hy
  rcases Shared.event_cases hev with
    rfl | ⟨k, _, rfl⟩ | ⟨a, b, _, ha, rfl⟩ | ⟨k, x, _, hx, _, ⟨i, hi, rfl⟩ | ⟨_, rfl⟩⟩
  · exact hy
  · exact hy.advance k
  · exact ⟨Memory.wf_write a b hwf, Memory.below_write b ha hbelow, hcodecs⟩
  · exact ⟨hwf, hbelow, Shared.sound_setCodec hcodecs ⟨by simpa [InFlight.issue] using hi, by simp⟩ k⟩
  · have hsound := hcodecs x (List.mem_of_getElem? hx)
    have hreset : Codec.Sound y.memLen { x with rsp := none } := ⟨hsound.1, by simp⟩
    exact ⟨hwf, hbelow, Shared.sound_setCodec hcodecs hreset k⟩

/-! ### A step that runs a command -/

/-- Settles O6: the two ways a command arrives are the two that `hostMove` hands to `exec`. -/
theorem stepRunsTheDecodedCommand : Obligations.StepRunsTheDecodedCommand := by
  refine ⟨fun s w rest i hhost hdec => ?_, fun s p rest hhost hfit => step_command_of_fit hhost hfit⟩
  rw [step_of_host_cons hhost]
  exact issueDescriptor_of_ok hdec _

/-! ### `buffer_size` governs -/

/-- A loop commutes with whatever each of its turns commutes with. -/
theorem ascend_map {α β : Type} (g : α → β) {n : Nat} {body : Nat → α → α} {body' : Nat → β → β}
    (h : ∀ i x, g (body i x) = body' i (g x)) (x : α) : g (ascend n body x) = ascend n body' (g x) := by
  induction n with
  | zero => rfl
  | succ n ih => rw [ascend_succ, ascend_succ, h, ih]

/-- The same state on a buffer memory of another size. -/
def State.withMemLen (len : Nat) (s : State) : State :=
  { s with cfg := { s.cfg with memLen := len } }

theorem encbBit_withMemLen (len : Nat) (e : Endian) (size start : Nat) (v : Value) (n i : Nat) (s : State) :
    (encbBit e size start v n i s).withMemLen len = encbBit e size start v n i (s.withMemLen len) := by
  by_cases h : byteIndex (start + i) < size
  · rw [encbBit_write h, encbBit_write h]; rfl
  · rw [encbBit_skip (Nat.le_of_not_lt h), encbBit_skip (Nat.le_of_not_lt h)]

/-- 20_memory R31: no test of a command is against `MEMLEN`. -/
theorem completion_withMemLen (len : Nat) (i : Instr) (s : State) :
    completion i (s.withMemLen len) = (completion i s).withMemLen len := by
  cases i with
  | enca e size off v n =>
    have hloop := ascend_map (n := n) (State.withMemLen len) (body := encaByte e off v n)
      (body' := encaByte e off v n) (fun _ _ => rfl) s
    simp only [completion, encaBytes, ← hloop]
    split <;> rfl
  | deca e size off n =>
    simp only [completion, decaBytes_eq]
    rfl
  | encb e size off bit v n =>
    have hloop := ascend_map (n := n) (State.withMemLen len) (encbBit_withMemLen len e size (startBit off bit) v n) s
    simp only [completion, encbBits, ← hloop]
    split <;> rfl
  | decb e size off bit n =>
    simp only [completion, decbBits_eq]
    rfl

/-- 20_memory R31: a byte at or above `buffer_size` is never written. -/
theorem completion_read_above {i : Instr} {a : Nat} (h : i.bufferSize ≤ a) (s : State) :
    Memory.read (completion i s).buf a = Memory.read s.buf a := by
  refine completion_buf_rule (fun m => Memory.read m a = Memory.read s.buf a) rfl fun m c b hc hm => ?_
  rw [Memory.read_write, if_neg (by omega), hm]

/-- Settles O14: the one test against `MEMLEN` decides between refusal and the completion, which reads and writes
below `buffer_size` and is the same under every `MEMLEN`. -/
theorem bufferSizeGoverns : Obligations.BufferSizeGoverns := by
  refine ⟨fun i s h => ?_, fun i s h => ?_⟩
  · rw [exec_eq_requireBuffer]
    exact if_neg (by omega)
  · obtain ⟨acc, hbus, hbelow⟩ := completion_bus_below i s
    refine ⟨_, acc, exec_of_bufferSize_le h, hbus, hbelow, fun a ha => completion_read_above ha s, fun len hlen => ?_⟩
    rw [exec_of_bufferSize_le hlen]
    exact congrArg _ (completion_withMemLen len i s)

/-! ### The footprint -/

/-- 41_bit_codec R102: the bits of a field that are in range are its first `m`. -/
theorem filter_byteIndex_eq (size start n : Nat) :
    ((List.range n).map fun i => byteIndex (start + i)).filter (· < size) =
      (List.range (inRangeBits size start n)).map fun i => byteIndex (start + i) := by
  induction n with
  | zero => simp [inRangeBits]
  | succ n ih =>
    rw [List.range_succ, List.map_append, List.filter_append, ih]
    by_cases h : byteIndex (start + n) < size
    · have hm : inRangeBits size start n = n ∧ inRangeBits size start (n + 1) = n + 1 := by
        unfold byteIndex at h
        unfold inRangeBits
        omega
      simp [hm, h, List.range_succ]
    · have hm : inRangeBits size start (n + 1) = inRangeBits size start n := by
        unfold byteIndex at h
        unfold inRangeBits
        omega
      simp [hm, h]

theorem length_footprint (i : Instr) : (footprint i).length = activeTurns i := by
  cases i with
  | enca e size off v n => simp only [footprint, activeTurns]; split <;> simp
  | deca e size off n => simp only [footprint, activeTurns]; split <;> simp
  | encb e size off bit v n => simp only [footprint, activeTurns, filter_byteIndex_eq]; split <;> simp
  | decb e size off bit n => simp only [footprint, activeTurns, filter_byteIndex_eq]; split <;> simp

theorem length_accessPlan (i : Instr) : (accessPlan i).length = accessCount i := by
  cases i with
  | encb e size off bit v n => simp [accessPlan, accessCount, length_footprint, Nat.mul_comm]
  | enca | deca | decb => simp [accessPlan, accessCount, length_footprint]

/-- Settles O22: the accesses are those of the plan, whose addresses are the footprint in order. -/
theorem accessesAreTheFootprint : Obligations.AccessesAreTheFootprint := by
  intro i s h
  obtain ⟨acc, hbus, hplan⟩ := completion_bus i s
  have haddr : acc.map (·.addr) = (accessPlan i).map (·.2) := by rw [← hplan, List.map_map]; rfl
  have hwrite : ∀ x ∈ acc, (x.isWrite, x.addr) ∈ accessPlan i := fun x hx => hplan ▸ List.mem_map_of_mem hx
  refine ⟨_, acc, exec_of_bufferSize_le h, hbus, ?_, ?_, fun hdec x hx => ?_, ?_, fun a ha =>
    lt_bufferSize_of_mem_footprint ha⟩
  · rw [haddr]
    cases i with
    | encb e size off bit v n => simp [accessPlan, List.map_flatMap]
    | enca | deca | decb => simp [accessPlan, Function.comp_def]
  · rw [← length_accessPlan, ← hplan, List.length_map]
  · have := hwrite x hx
    cases i with
    | enca | encb => cases hdec
    | deca | decb =>
      obtain ⟨_, _, ha⟩ := List.mem_map.mp this
      exact (congrArg Prod.fst ha).symm
  · rintro ⟨e, size, off, v, n, rfl⟩ x hx
    obtain ⟨_, _, ha⟩ := List.mem_map.mp (hwrite x hx)
    exact (congrArg Prod.fst ha).symm

/-! ### Non-interference -/

/-- 20_memory R51: DECA reads the bytes of its span only. -/
theorem decaBytes_result_congr (e : Endian) (size off n : Nat) {s s' : State}
    (h : ∀ a, off ≤ a → a < off + n → Memory.read s'.buf a = Memory.read s.buf a) :
    (decaBytes e size off n s').1 = (decaBytes e size off n s).1 := by
  simp only [decaBytes_eq]
  rw [sumUpTo_congr fun i hi => by rw [h (off + i) (by omega) (by omega)]]

/-- 20_memory R51: DECB reads the bits of its field only. -/
theorem decbBits_result_congr (e : Endian) (size start n : Nat) {s s' : State} (hcfg : s'.cfg = s.cfg)
    (h : ∀ pos, start ≤ pos → pos < start + n →
      bufBit s.cfg.bitNum s'.buf pos = bufBit s.cfg.bitNum s.buf pos) :
    (decbBits e size start n s').1 = (decbBits e size start n s).1 := by
  simp only [decbBits_eq, hcfg]
  rw [sumUpTo_congr fun i hi => by rw [h (start + i) (by omega) (by omega)]]

/-- Settles O47: a decode's result is a sum over its field, and an encode's loop changes its field only. -/
theorem decodeDependsOnTheFieldOnly : Obligations.DecodeDependsOnTheFieldOnly := by
  refine ⟨fun e size off n s s' hs hcfg h => ?_, fun e size off bit n s s' hs hcfg h => ?_,
    fun e size off v n s hs => ?_, fun e size off bit v n s hs => ?_⟩
  · refine ⟨_, _, exec_of_bufferSize_le hs, exec_of_bufferSize_le (by rwa [hcfg]), ?_⟩
    simp [completion, decaBytes_result_congr e size off n h]
  · refine ⟨_, _, exec_of_bufferSize_le hs, exec_of_bufferSize_le (by rwa [hcfg]), ?_⟩
    simp [completion, decbBits_result_congr e size _ n hcfg h]
  · refine ⟨_, exec_of_bufferSize_le hs, fun a ha => ?_⟩
    simp only [completion, State.completeEncode_buf, encaBytes_read]
    rw [if_neg (by omega)]
  · refine ⟨_, exec_of_bufferSize_le hs, fun pos hpos => ?_⟩
    simp only [completion, State.completeEncode_buf, encbBits_bufBit]
    rw [if_neg (by omega)]

/-! ### A command as a sequence of accesses -/

/-- How many accesses a command in progress has still to make: two for each remaining bit of ENCB, one fewer once its
byte is held, and one for each remaining turn of the others. -/
def InFlight.left (f : InFlight) : Nat :=
  match f.cmd with
  | .encb .. => 2 * (activeTurns f.cmd - f.idx) - f.held.isSome.toNat
  | .enca .. | .deca .. | .decb .. => activeTurns f.cmd - f.idx

@[simp] theorem InFlight.issue_cmd (i : Instr) : (InFlight.issue i).cmd = i := rfl

@[simp] theorem InFlight.left_issue (i : Instr) : (InFlight.issue i).left = accessCount i := by
  cases i <;> rfl

theorem InFlight.done_iff (f : InFlight) : f.done = true ↔ f.left = 0 := by
  obtain ⟨cmd, idx, held, acc⟩ := f
  simp only [InFlight.done, decide_eq_true_eq]
  cases cmd with
  | encb e size off bit v n =>
    have : held.isSome.toNat ≤ 1 := Bool.toNat_le _
    simp only [InFlight.left]
    omega
  | enca | deca | decb => simp only [InFlight.left]; omega

theorem InFlight.left_access (bn : BitNum) (f : InFlight) (m : Memory) : (f.access bn m).1.left = f.left - 1 := by
  cases hd : f.done with
  | true => rw [InFlight.access_of_done bn m hd, f.done_iff.mp hd]
  | false =>
    have hidx := InFlight.idx_lt hd
    obtain ⟨cmd, idx, held, acc⟩ := f
    cases cmd with
    | enca e size off v n => simp only [InFlight.access_enca hidx, InFlight.left]; omega
    | deca e size off n => simp only [InFlight.access_deca hidx, InFlight.left]; omega
    | encb e size off bit v n =>
      cases held with
      | none => rw [InFlight.access_encb_read hidx]; rfl
      | some b =>
        simp only [InFlight.access_encb_write hidx, InFlight.left, Option.isSome, Bool.toNat_true, Bool.toNat_false]
        omega
    | decb e size off bit n => simp only [InFlight.access_decb hidx, InFlight.left]; omega

/-- All the accesses that a command in progress has still to make, with nothing between them. -/
def InFlight.finish (bn : BitNum) (f : InFlight) (m : Memory) : InFlight × Memory :=
  (fun x : InFlight × Memory => x.1.access bn x.2)^[f.left] (f, m)

theorem InFlight.finish_of_done (bn : BitNum) {f : InFlight} (m : Memory) (h : f.done = true) :
    f.finish bn m = (f, m) := by
  simp [InFlight.finish, f.done_iff.mp h]

/-- An access takes nothing away from where the command ends. -/
theorem InFlight.finish_access (bn : BitNum) (f : InFlight) (m : Memory) :
    (f.access bn m).1.finish bn (f.access bn m).2 = f.finish bn m := by
  cases hd : f.done with
  | true => rw [InFlight.access_of_done bn m hd]
  | false =>
    have hpos : f.left ≠ 0 := by simp [← f.done_iff, hd]
    obtain ⟨k, hk⟩ := Nat.exists_eq_succ_of_ne_zero hpos
    simp [InFlight.finish, InFlight.left_access, hk]

/-- Induction over the accesses a command in progress has still to make. -/
theorem InFlight.access_induction {bn : BitNum} {P : InFlight → Memory → Prop}
    (done : ∀ f m, f.done = true → P f m)
    (access : ∀ f m, f.done = false → P (f.access bn m).1 (f.access bn m).2 → P f m) (f : InFlight) (m : Memory) :
    P f m := by
  induction hl : f.left generalizing f m with
  | zero => exact done f m (f.done_iff.mpr hl)
  | succ k ih =>
    refine access f m ?_ (ih _ _ (by rw [InFlight.left_access, hl, Nat.add_sub_cancel]))
    rw [← Bool.not_eq_true, f.done_iff, hl]
    exact Nat.succ_ne_zero k

/-! ### The accesses of a command are the turns of its loop -/

/-- What the first `k` turns of a command's loop have gathered, and the state they leave. -/
def loopAfter (i : Instr) (s : State) (k : Nat) : Nat × State :=
  match i with
  | .enca e _ off v n => (0, ascend k (encaByte e off v n) s)
  | .deca e _ off n => ascend k (decaByte e off n) (0, s)
  | .encb e size off bit v n => (0, ascend k (encbBit e size (startBit off bit) v n) s)
  | .decb e size off bit n => ascend k (decbBit e size (startBit off bit) n) (0, s)

/-- A loop whose last turns do nothing ends with the turns before them. -/
theorem ascend_of_idle_turns {α : Type} {n m : Nat} {body : Nat → α → α} (hm : m ≤ n)
    (h : ∀ i x, m ≤ i → i < n → body i x = x) (x : α) : ascend n body x = ascend m body x := by
  induction n, hm using Nat.le_induction with
  | base => rfl
  | succ n hmn ih =>
    rw [ascend_succ, h n _ hmn n.lt_succ_self, ih fun i x hi hin => h i x hi (hin.trans n.lt_succ_self)]

theorem size_le_byteIndex {size start n i : Nat} (hi : inRangeBits size start n ≤ i) (hn : i < n) :
    size ≤ byteIndex (start + i) := by
  unfold inRangeBits at hi
  unfold byteIndex
  omega

theorem encaBytes_eq_ascend (e : Endian) (size off : Nat) (v : Value) (n : Nat) (s : State) :
    encaBytes e size off v n s = ascend (activeTurns (.enca e size off v n)) (encaByte e off v n) s := by
  simp only [encaBytes, activeTurns]
  split <;> rfl

theorem decaBytes_eq_ascend (e : Endian) (size off n : Nat) (s : State) :
    decaBytes e size off n s = ascend (activeTurns (.deca e size off n)) (decaByte e off n) (0, s) := by
  simp only [decaBytes, activeTurns]
  split <;> rfl

theorem encbBits_eq_ascend (e : Endian) (size off : Nat) (bit : Fin 8) (v : Value) (n : Nat) (s : State) :
    encbBits e size (startBit off bit) v n s =
      ascend (activeTurns (.encb e size off bit v n)) (encbBit e size (startBit off bit) v n) s := by
  simp only [encbBits, activeTurns]
  split
  · rfl
  · exact ascend_of_idle_turns (Nat.min_le_left _ _) (fun _ _ hi hin => encbBit_skip (size_le_byteIndex hi hin)) s

theorem decbBits_eq_ascend (e : Endian) (size off : Nat) (bit : Fin 8) (n : Nat) (s : State) :
    decbBits e size (startBit off bit) n s =
      ascend (activeTurns (.decb e size off bit n)) (decbBit e size (startBit off bit) n) (0, s) := by
  simp only [decbBits, activeTurns]
  split
  · rfl
  · exact ascend_of_idle_turns (Nat.min_le_left _ _) (fun _ _ hi hin => if_pos (size_le_byteIndex hi hin)) (0, s)

theorem loopAfter_cfg (i : Instr) (s : State) (k : Nat) : (loopAfter i s k).2.cfg = s.cfg := by
  cases i with
  | enca e size off v n => rw [loopAfter, encaLoop_eq]
  | deca e size off n => rw [loopAfter, decaLoop_eq]
  | encb e size off bit v n => rw [loopAfter, encbLoop_eq]
  | decb e size off bit n => rw [loopAfter, decbLoop_eq]

/-- A command in progress at the start of turn `k` of its loop. -/
def InFlight.atTurn (i : Instr) (s : State) (k : Nat) : InFlight :=
  ⟨i, k, none, (loopAfter i s k).1⟩

/-- 20_memory R39, 41_bit_codec R102: a command is the turns of its loop that make an access. -/
theorem completion_of_loopAfter (i : Instr) (s : State) :
    (completion i s).buf = (loopAfter i s (activeTurns i)).2.buf ∧
      (completion i s).rsp = some (InFlight.atTurn i s (activeTurns i)).response := by
  cases i with
  | enca e size off v n => rw [completion, encaBytes_eq_ascend]; exact ⟨rfl, rfl⟩
  | deca e size off n => rw [completion, decaBytes_eq_ascend]; exact ⟨rfl, rfl⟩
  | encb e size off bit v n => rw [completion, encbBits_eq_ascend]; exact ⟨rfl, rfl⟩
  | decb e size off bit n => rw [completion, decbBits_eq_ascend]; exact ⟨rfl, rfl⟩

/-- 20_memory R39: the accesses of one turn do what the turn of the atomic step does: one access, for ENCB the read
and then the write of the bit's byte. -/
theorem InFlight.finish_atTurn {i : Instr} (s : State) {k : Nat} (hk : k < activeTurns i) :
    (InFlight.atTurn i s k).finish s.cfg.bitNum (loopAfter i s k).2.buf =
      (InFlight.atTurn i s (k + 1)).finish s.cfg.bitNum (loopAfter i s (k + 1)).2.buf := by
  have hcfg := loopAfter_cfg i s k
  rw [← InFlight.finish_access]
  cases i with
  | enca e size off v n => rw [InFlight.atTurn, InFlight.access_enca hk]; rfl
  | deca e size off n => rw [InFlight.atTurn, InFlight.access_deca hk]; rfl
  | encb e size off bit v n =>
    have hin : byteIndex (startBit off bit + k) < size :=
      lt_bufferSize_of_mem_footprint (i := .encb e size off bit v n) (mem_footprint_bits rfl hk)
    have hturn : loopAfter (.encb e size off bit v n) s (k + 1) = (0, _) :=
      congrArg (Prod.mk 0) (encbBit_write hin)
    rw [InFlight.atTurn, InFlight.access_encb_read hk, ← InFlight.finish_access, InFlight.access_encb_write hk,
      InFlight.atTurn, hturn, ← hcfg]
    rfl
  | decb e size off bit n =>
    have hin : byteIndex (startBit off bit + k) < size :=
      lt_bufferSize_of_mem_footprint (i := .decb e size off bit n) (mem_footprint_bits rfl hk)
    have hturn : loopAfter (.decb e size off bit n) s (k + 1) = (_, _) := if_neg (Nat.not_le.mpr hin)
    rw [InFlight.atTurn, InFlight.access_decb hk, InFlight.atTurn, hturn, ← hcfg]
    rfl

/-- 20_memory R45: a command's accesses with nothing between them do what its atomic step does. -/
theorem InFlight.finish_issue (i : Instr) (s : State) :
    ∃ f : InFlight, (InFlight.issue i).finish s.cfg.bitNum s.buf = (f, (completion i s).buf) ∧
      (completion i s).rsp = some f.response := by
  have hturns : ∀ k, k ≤ activeTurns i → (InFlight.issue i).finish s.cfg.bitNum s.buf =
      (InFlight.atTurn i s k).finish s.cfg.bitNum (loopAfter i s k).2.buf := by
    intro k hk
    induction k with
    | zero => cases i <;> rfl
    | succ k ih => rw [ih (by omega), InFlight.finish_atTurn s hk]
  have hdone : (InFlight.atTurn i s (activeTurns i)).done = true := decide_eq_true le_rfl
  obtain ⟨hbuf, hrsp⟩ := completion_of_loopAfter i s
  exact ⟨_, by rw [hturns _ le_rfl, InFlight.finish_of_done _ _ hdone, hbuf], hrsp⟩

/-! ### A codec that runs alone -/

/-- A codec with its command brought to its end, with nothing between its turns. -/
def Codec.finish (x : Codec) (m : Memory) : Codec × Memory :=
  match x.command with
  | none => (x, m)
  | some f => (x.complete (f.finish x.params.bitNum m).1, (f.finish x.params.bitNum m).2)

theorem Codec.finish_of_idle {x : Codec} (h : x.command = none) (m : Memory) : x.finish m = (x, m) := by
  simp only [Codec.finish, h]

theorem Codec.finish_of_busy {x : Codec} {f : InFlight} (h : x.command = some f) (m : Memory) :
    x.finish m = (x.complete (f.finish x.params.bitNum m).1, (f.finish x.params.bitNum m).2) := by
  simp only [Codec.finish, h]

section turn

variable {x : Codec} {f : InFlight} {m : Memory}

theorem Codec.advance_last (h : x.command = some f) (hd : (f.access x.params.bitNum m).1.done = true) :
    x.advance m = (x.complete (f.access x.params.bitNum m).1, (f.access x.params.bitNum m).2) := by
  simp [Codec.advance, h, hd]

theorem Codec.advance_not_last (h : x.command = some f) (hd : (f.access x.params.bitNum m).1.done = false) :
    x.advance m =
      ({ x with command := some (f.access x.params.bitNum m).1, rsp := none }, (f.access x.params.bitNum m).2) := by
  simp [Codec.advance, h, hd]

/-- A turn takes nothing away from where a command in progress ends. -/
theorem Codec.finish_advance (h : x.command = some f) (m : Memory) :
    (x.advance m).1.finish (x.advance m).2 = x.finish m := by
  rw [Codec.finish_of_busy h, ← InFlight.finish_access]
  cases hd : (f.access x.params.bitNum m).1.done with
  | true => rw [Codec.advance_last h hd, Codec.finish_of_idle rfl, InFlight.finish_of_done _ _ hd]
  | false => rw [Codec.advance_not_last h hd, Codec.finish_of_busy rfl]; rfl

/-- A codec alone completes in the turn of its command's last access. -/
theorem Shared.run_alone_of_left (memLen : Nat) {n : Nat} (h : x.command = some f) (hn : f.left - 1 = n) :
    Shared.run (List.replicate (n + 1) 0) ⟨memLen, m, [x]⟩ = ⟨memLen, (x.finish m).2, [(x.finish m).1]⟩ := by
  rw [← InFlight.left_access x.params.bitNum f m] at hn
  rw [← Codec.finish_advance h]
  change Shared.run (List.replicate n 0) ⟨memLen, (x.advance m).2, [(x.advance m).1]⟩ = _
  induction n generalizing x f m with
  | zero =>
    rw [Codec.advance_last h ((InFlight.done_iff _).mpr hn)]
    rfl
  | succ n ih =>
    have hd : (f.access x.params.bitNum m).1.done = false := by
      rw [← Bool.not_eq_true, InFlight.done_iff, hn]
      exact n.succ_ne_zero
    rw [Codec.advance_not_last h hd, ← Codec.finish_advance rfl]
    exact ih rfl (by rw [InFlight.left_access, hn, Nat.add_sub_cancel])

end turn

/-- 70_reset R186: a codec alone completes in as many turns as its command makes accesses, in one turn when it
makes none. -/
theorem Shared.run_take_alone (memLen : Nat) (x : Codec) (i : Instr) (m : Memory) :
    Shared.run (List.replicate (max 1 (accessCount i)) 0) ⟨memLen, m, [x.take i]⟩ =
      ⟨memLen, ((x.take i).finish m).2, [((x.take i).finish m).1]⟩ := by
  have hturns : max 1 (accessCount i) = accessCount i - 1 + 1 := by omega
  rw [hturns]
  exact Shared.run_alone_of_left memLen (x.take_command i) (by rw [InFlight.left_issue])

/-- 20_memory R45: a codec that takes a command and runs alone ends with the buffer of the atomic step under its
own parameters, and gives its response. -/
theorem Codec.finish_take (x : Codec) (i : Instr) (s : State) :
    ∃ r, (completion i (s.withParams x.params)).rsp = some r ∧
      (x.take i).finish s.buf =
        ({ x with command := none, rsp := some r, given := x.given ++ [r] },
          (completion i (s.withParams x.params)).buf) := by
  obtain ⟨f, hf, hrsp⟩ := InFlight.finish_issue i (s.withParams x.params)
  refine ⟨f.response, hrsp, ?_⟩
  rw [Codec.finish_of_busy (x.take_command i)]
  exact congrArg (fun y : InFlight × Memory => ((x.take i).complete y.1, y.2)) hf

/-- 40_aligned R80: the span test cuts the count at 8. -/
theorem alignedTurns_le (size off n : Nat) : (if spanFail size off n then 0 else n) ≤ min n 8 := by
  split
  · exact Nat.zero_le _
  next h =>
    have := (spanFail_eq_false.mp (Bool.eq_false_of_not_eq_true h)).2
    omega

/-- 41_bit_codec R101, R102: the width test and the end of the buffer cut the count at 64. -/
theorem bitTurns_le (size start n : Nat) : (if widthFail n then 0 else inRangeBits size start n) ≤ min n 64 := by
  split
  · exact Nat.zero_le _
  next h =>
    have := widthFail_eq_false.mp (Bool.eq_false_of_not_eq_true h)
    unfold inRangeBits
    omega

/-- Settles O48: the turns of a codec alone are the turns of the atomic step's loop. -/
theorem accessByAccessRefinesTheAtomicStep : Obligations.AccessByAccessRefinesTheAtomicStep := by
  intro i s x h
  obtain ⟨r, hrsp, hfinish⟩ := x.finish_take i s
  refine ⟨_, r, exec_of_bufferSize_le h, hrsp, ?_, ?_⟩
  · rw [Shared.run_take_alone, hfinish]
  · cases i with
    | enca e size off v n => exact alignedTurns_le size off n
    | deca e size off n => exact alignedTurns_le size off n
    | encb e size off bit v n => exact Nat.mul_le_mul_left 2 (bitTurns_le size (startBit off bit) n)
    | decb e size off bit n => exact bitTurns_le size (startBit off bit) n

/-! ### Two codecs on one buffer -/

/-- The rule of two codecs: what holds of them and the buffer and is kept by a turn of either holds after every
schedule, and when both are idle at its end it holds of two idle codecs. -/
theorem Shared.run_pair_rule (P : Codec → Codec → Memory → Prop)
    (first : ∀ x z m, P x z m → P (x.advance m).1 z (x.advance m).2)
    (second : ∀ x z m, P x z m → P x (z.advance m).1 (z.advance m).2)
    (schedule : List Nat) {memLen : Nat} {m : Memory} {x z : Codec} (h : P x z m)
    (hidle : (Shared.run schedule ⟨memLen, m, [x, z]⟩).allIdle = true) :
    ∃ x' z', (Shared.run schedule ⟨memLen, m, [x, z]⟩).codecs = [x', z'] ∧ x'.command = none ∧ z'.command = none ∧
      P x' z' (Shared.run schedule ⟨memLen, m, [x, z]⟩).mem := by
  induction schedule generalizing m x z with
  | nil =>
    have hboth : x.command = none ∧ z.command = none := by
      simpa [Shared.run, Shared.allIdle, Codec.cmdReady] using hidle
    exact ⟨x, z, rfl, hboth.1, hboth.2, h⟩
  | cons k rest ih =>
    match k with
    | 0 => exact ih (first x z m h) hidle
    | 1 => exact ih (second x z m h) hidle
    | k + 2 => exact ih h hidle

/-! ### Two codecs that keep the contract -/

/-- Command `i` writes no byte at `a`: it is a decode, or its footprint is elsewhere. -/
def Spares (i : Instr) (a : Nat) : Prop :=
  isEncode i = false ∨ a ∉ footprint i

theorem keepsContract_eq (i j : Instr) :
    keepsContract i j = (!isEncode i && !isEncode j || (footprint i).all fun a => !(footprint j).contains a) := by
  cases i <;> cases j <;> rfl

/-- 20_memory R46: under the contract each command spares the footprint of the other. -/
theorem spares_of_keepsContract {i j : Instr} (h : keepsContract i j = true) :
    (∀ a ∈ footprint j, Spares i a) ∧ ∀ a ∈ footprint i, Spares j a := by
  have hcase : isEncode i = false ∧ isEncode j = false ∨ ∀ a ∈ footprint i, a ∉ footprint j := by
    simpa [keepsContract_eq] using h
  rcases hcase with ⟨hi, hj⟩ | hdisj
  · exact ⟨fun _ _ => .inl hi, fun _ _ => .inl hj⟩
  · exact ⟨fun a haj => .inr fun hai => hdisj a hai haj, fun a hai => .inr (hdisj a hai)⟩

theorem InFlight.access_spares {bn : BitNum} {f : InFlight} {a : Nat} (h : Spares f.cmd a) (m : Memory) :
    Memory.read (f.access bn m).2 a = Memory.read m a := by
  rcases h with h | h
  · rw [InFlight.access_decode bn f m h]
  · exact InFlight.access_outside bn f m h

theorem InFlight.finish_spares {bn : BitNum} {f : InFlight} {a : Nat} (h : Spares f.cmd a) (m : Memory) :
    Memory.read (f.finish bn m).2 a = Memory.read m a := by
  induction f, m using InFlight.access_induction (bn := bn) with
  | done f m hd => rw [InFlight.finish_of_done bn m hd]
  | access f m _ ih =>
    rw [← InFlight.finish_access, ih (by rwa [InFlight.access_cmd]), InFlight.access_spares h]

/-- Where a command ends, on its footprint and in what it gathers, depends on the bytes of its footprint only. -/
theorem InFlight.finish_congr {bn : BitNum} {f : InFlight} {m m' : Memory}
    (h : ∀ a ∈ footprint f.cmd, Memory.read m a = Memory.read m' a) :
    (f.finish bn m).1 = (f.finish bn m').1 ∧
      ∀ a ∈ footprint f.cmd, Memory.read (f.finish bn m).2 a = Memory.read (f.finish bn m').2 a := by
  induction f, m using InFlight.access_induction (bn := bn) generalizing m' with
  | done f m hd => simpa [InFlight.finish_of_done bn _ hd] using h
  | access f m _ ih =>
    obtain ⟨hstate, hmem⟩ := InFlight.access_congr bn f h
    rw [← InFlight.finish_access, ← InFlight.finish_access bn f m', ← hstate]
    rw [InFlight.access_cmd] at ih
    exact ih hmem

theorem Codec.advance_of_idle {x : Codec} (h : x.command = none) (m : Memory) :
    x.advance m = ({ x with rsp := none }, m) := by
  simp [Codec.advance, h]

/-- A turn keeps the command's operands and spares what the command spares. -/
theorem Codec.advance_spares {x : Codec} {i : Instr} (h : ∀ f, x.command = some f → f.cmd = i) (m : Memory) :
    (∀ f, (x.advance m).1.command = some f → f.cmd = i) ∧
      ∀ a, Spares i a → Memory.read (x.advance m).2 a = Memory.read m a := by
  rcases x.advance_cases m with ⟨hc, he⟩ | ⟨f, hc, _, he⟩ | ⟨f, hc, _, he⟩ <;> rw [he]
  · exact ⟨h, fun _ _ => rfl⟩
  · obtain rfl := h f hc
    exact ⟨by simp, fun a ha => InFlight.access_spares ha m⟩
  · obtain rfl := h f hc
    refine ⟨fun g hg => ?_, fun a ha => InFlight.access_spares ha m⟩
    obtain rfl : (f.access x.params.bitNum m).1 = g := by simpa using hg
    exact InFlight.access_cmd _ f m

/-- Codec `x` is on its way, on the buffer `m`, through command `i` to giving `r` and nothing else, and to leaving
the footprint as it is in `target`. -/
def Codec.OnCourse (i : Instr) (r : Response) (target : Memory) (x : Codec) (m : Memory) : Prop :=
  (∀ f, x.command = some f → f.cmd = i) ∧ (x.finish m).1.given = [r] ∧
    ∀ a ∈ footprint i, Memory.read (x.finish m).2 a = Memory.read target a

section course

variable {i j : Instr} {r r' : Response} {target m m' : Memory} {x z : Codec}

/-- Its own turns keep a codec on course. -/
theorem Codec.OnCourse.advance (h : x.OnCourse i r target m) :
    (x.advance m).1.OnCourse i r target (x.advance m).2 := by
  obtain ⟨hcmd, hgiven, hmem⟩ := h
  refine ⟨(Codec.advance_spares hcmd m).1, ?_⟩
  cases hc : x.command with
  | none =>
    rw [Codec.finish_of_idle hc] at hgiven hmem
    rw [Codec.advance_of_idle hc, Codec.finish_of_idle (x := { x with rsp := none }) hc]
    exact ⟨hgiven, hmem⟩
  | some f =>
    rw [Codec.finish_advance hc]
    exact ⟨hgiven, hmem⟩

/-- What happens outside the command's footprint keeps a codec on course. -/
theorem Codec.OnCourse.congr (h : x.OnCourse i r target m)
    (hm : ∀ a ∈ footprint i, Memory.read m' a = Memory.read m a) : x.OnCourse i r target m' := by
  obtain ⟨hcmd, hgiven, hmem⟩ := h
  refine ⟨hcmd, ?_⟩
  cases hc : x.command with
  | none =>
    rw [Codec.finish_of_idle hc] at hgiven hmem ⊢
    exact ⟨hgiven, fun a ha => (hm a ha).trans (hmem a ha)⟩
  | some f =>
    obtain rfl := hcmd f hc
    obtain ⟨hstate, hreads⟩ := InFlight.finish_congr (bn := x.params.bitNum) hm
    rw [Codec.finish_of_busy hc] at hgiven hmem ⊢
    exact ⟨by rwa [hstate], fun a ha => (hreads a ha).trans (hmem a ha)⟩

/-- A command that has completed on course has arrived. -/
theorem Codec.OnCourse.of_idle (h : x.OnCourse i r target m) (hidle : x.command = none) :
    x.given = [r] ∧ ∀ a ∈ footprint i, Memory.read m a = Memory.read target a := by
  obtain ⟨_, hgiven, hmem⟩ := h
  rw [Codec.finish_of_idle hidle] at hgiven hmem
  exact ⟨hgiven, hmem⟩

/-- Two codecs on course to the same final buffer, which already holds its bytes outside both footprints. -/
def Serial (i j : Instr) (r r' : Response) (target : Memory) (x z : Codec) (m : Memory) : Prop :=
  x.OnCourse i r target m ∧ z.OnCourse j r' target m ∧
    ∀ a, a ∉ footprint i → a ∉ footprint j → Memory.read m a = Memory.read target a

/-- 20_memory R46: under the contract a turn of the first codec keeps both on course. -/
theorem Serial.advance_first (hij : ∀ a ∈ footprint j, Spares i a) (h : Serial i j r r' target x z m) :
    Serial i j r r' target (x.advance m).1 z (x.advance m).2 := by
  obtain ⟨hx, hz, hrest⟩ := h
  have hsp := (Codec.advance_spares hx.1 m).2
  exact ⟨hx.advance, hz.congr fun a ha => hsp a (hij a ha), fun a hi hj => (hsp a (.inr hi)).trans (hrest a hi hj)⟩

theorem Serial.swap (h : Serial i j r r' target x z m) : Serial j i r' r target z x m := by
  obtain ⟨hx, hz, hrest⟩ := h
  exact ⟨hz, hx, fun a hj hi => hrest a hi hj⟩

/-- Codecs that are on course and idle have arrived. -/
theorem Serial.read_of_idle (h : Serial i j r r' target x z m) (hx : x.command = none) (hz : z.command = none)
    (a : Nat) : Memory.read m a = Memory.read target a := by
  obtain ⟨hxc, hzc, hrest⟩ := h
  by_cases hi : a ∈ footprint i
  · exact (hxc.of_idle hx).2 a hi
  · by_cases hj : a ∈ footprint j
    · exact (hzc.of_idle hz).2 a hj
    · exact hrest a hi hj

end course

/-- A command leaves every byte it spares. -/
theorem completion_spares {i : Instr} {a : Nat} (h : Spares i a) (s : State) :
    Memory.read (completion i s).buf a = Memory.read s.buf a := by
  obtain ⟨f, hf, _⟩ := InFlight.finish_issue i s
  have := InFlight.finish_spares (bn := s.cfg.bitNum) (f := InFlight.issue i) h s.buf
  rwa [hf] at this

/-- A codec that takes a command on the buffer of `s` is on course to where the atomic step ends. -/
theorem Codec.onCourse_take (i : Instr) (p : BlockParams) (s : State) :
    ∃ r, (completion i (s.withParams p)).rsp = some r ∧
      ((Codec.reset p).take i).OnCourse i r (completion i (s.withParams p)).buf s.buf := by
  obtain ⟨r, hrsp, hfinish⟩ := (Codec.reset p).finish_take i s
  refine ⟨r, hrsp, fun f hf => ?_, ?_, ?_⟩
  · cases hf
    rfl
  · rw [hfinish]
    rfl
  · rw [hfinish]
    exact fun _ _ => rfl

/-- Two codecs that take commands which keep the contract are on course to where the first command and then the
second ends: the second finds its footprint, and leaves that of the first, as if it ran alone. -/
theorem serial_take {i j : Instr} {s t u : State} {p q : BlockParams} (hc : keepsContract i j = true)
    (ht : t = completion i (s.withParams p)) (hu : u = completion j (t.withParams q)) :
    ∃ r r', t.rsp = some r ∧ u.rsp = some r' ∧
      Serial i j r r' u.buf ((Codec.reset p).take i) ((Codec.reset q).take j) s.buf := by
  obtain ⟨hij, hji⟩ := spares_of_keepsContract hc
  have hst {a : Nat} (ha : Spares i a) : Memory.read s.buf a = Memory.read t.buf a :=
    ht ▸ (completion_spares ha (s.withParams p)).symm
  have htu {a : Nat} (ha : Spares j a) : Memory.read t.buf a = Memory.read u.buf a :=
    hu ▸ (completion_spares ha (t.withParams q)).symm
  obtain ⟨r, hr, hcmd, hgiven, hmem⟩ := Codec.onCourse_take i p s
  obtain ⟨r', hr', hz⟩ := Codec.onCourse_take j q t
  rw [← ht] at hr hmem
  rw [← hu] at hr' hz
  exact ⟨r, r', hr, hr', ⟨hcmd, hgiven, fun a ha => (hmem a ha).trans (htu (hji a ha))⟩,
    hz.congr fun a ha => hst (hij a ha), fun a hi hj => (hst (.inr hi)).trans (htu (.inr hj))⟩

/-- Settles O49: every turn of either codec keeps both on course to the serial end, which idle codecs have
reached. -/
theorem commandsThatKeepTheContractSerialize : Obligations.CommandsThatKeepTheContractSerialize := by
  intro i j s p q hi hj hc schedule y hy hidle
  subst hy
  obtain ⟨hij, hji⟩ := spares_of_keepsContract hc
  obtain ⟨r, r', hr, hr', hserial⟩ := serial_take (s := s) (p := p) (q := q) hc rfl rfl
  obtain ⟨x, z, hcodecs, hx, hz, hend⟩ := Shared.run_pair_rule (Serial i j r r' _)
    (fun _ _ _ h => h.advance_first hij) (fun _ _ _ h => (h.swap.advance_first hji).swap) schedule hserial hidle
  refine ⟨_, _, exec_of_bufferSize_le hi, exec_of_bufferSize_le (by simpa using hj), hend.read_of_idle hx hz, ?_⟩
  obtain ⟨hxc, hzc, _⟩ := hend
  simp [hcodecs, (hxc.of_idle hx).1, (hzc.of_idle hz).1, hr, hr']

/-! ### The race -/

/-- The parameters of both codecs of the race. -/
def raceParams : BlockParams := ⟨.lsb0, 32, true⟩

/-- What decides the race: the two commands in progress and the shared buffer. -/
abbrev RaceView := Option InFlight × Option InFlight × Memory

/-- The two ENCB of 95_test_vectors, which set bit 0 and bit 1 of the one byte. -/
def raceSet (bit : Fin 8) : Instr :=
  .encb .le 1 0 bit 1 1

/-- A command of the race before its read, and when it holds the byte it has read. -/
def raceFresh (bit : Fin 8) : Option InFlight :=
  some ⟨raceSet bit, 0, none, 0⟩

def raceHolds (bit : Fin 8) (b : Byte) : Option InFlight :=
  some ⟨raceSet bit, 0, some b, 0⟩

/-- Everything the race can come to: a command reads 00H or, after the other's write, that write; the last write
decides. -/
def raceViews : List RaceView :=
  [(raceFresh 0, raceFresh 1, []),
    (raceHolds 0 0, raceFresh 1, []), (raceFresh 0, raceHolds 1 0, []), (raceHolds 0 0, raceHolds 1 0, []),
    (none, raceFresh 1, [(0, 1)]), (none, raceHolds 1 0, [(0, 1)]), (none, raceHolds 1 1, [(0, 1)]),
    (raceFresh 0, none, [(0, 2)]), (raceHolds 0 0, none, [(0, 2)]), (raceHolds 0 2, none, [(0, 2)]),
    (none, none, [(0, 1)]), (none, none, [(0, 2)]), (none, none, [(0, 3)])]

/-- What a turn of an LSB0 codec makes of its command in progress and the buffer. -/
def raceTurn (c : Option InFlight) (m : Memory) : Option InFlight × Memory :=
  let x := Codec.advance ⟨raceParams, c, none, []⟩ m
  (x.1.command, x.2)

theorem Codec.advance_raceTurn {x : Codec} (hx : x.params = raceParams) (m : Memory) :
    ((x.advance m).1.command, (x.advance m).2) = raceTurn x.command m := by
  obtain ⟨params, command, rsp, given⟩ := x
  subst hx
  cases command with
  | none => rfl
  | some f =>
    simp only [raceTurn, Codec.advance]
    split <;> rfl

theorem Codec.advance_params (x : Codec) (m : Memory) : (x.advance m).1.params = x.params := by
  rcases x.advance_cases m with ⟨_, he⟩ | ⟨f, _, _, he⟩ | ⟨f, _, _, he⟩ <;>
    exact congrArg (fun y : Codec × Memory => y.1.params) he

/-- A turn of either codec leads from one view of the race to another. -/
theorem raceViews_closed : ∀ w ∈ raceViews,
    ((raceTurn w.1 w.2.2).1, w.2.1, (raceTurn w.1 w.2.2).2) ∈ raceViews ∧
      (w.1, raceTurn w.2.1 w.2.2) ∈ raceViews := by
  decide

theorem raceViews_idle : ∀ w ∈ raceViews, w.1 = none → w.2.1 = none →
    Memory.read w.2.2 0 ∈ [0x03#8, 0x02#8, 0x01#8] := by
  decide

/-- Two codecs in the race. -/
def Racing (x z : Codec) (m : Memory) : Prop :=
  x.params = raceParams ∧ z.params = raceParams ∧ (x.command, z.command, m) ∈ raceViews

theorem Racing.advance_first {x z : Codec} {m : Memory} (h : Racing x z m) :
    Racing (x.advance m).1 z (x.advance m).2 := by
  obtain ⟨hx, hz, hview⟩ := h
  have hturn := (raceViews_closed _ hview).1
  rw [← Codec.advance_raceTurn hx] at hturn
  exact ⟨(x.advance_params m).trans hx, hz, hturn⟩

theorem Racing.advance_second {x z : Codec} {m : Memory} (h : Racing x z m) :
    Racing x (z.advance m).1 (z.advance m).2 := by
  obtain ⟨hx, hz, hview⟩ := h
  have hturn := (raceViews_closed _ hview).2
  rw [← Codec.advance_raceTurn hz] at hturn
  exact ⟨hx, (z.advance_params m).trans hz, hturn⟩

/-- Settles O50: every turn stays among the views of the race, and the schedules RA WA RB WB, RA RB WA WB and
RA RB WB WA of 95_test_vectors end in the three bytes. -/
theorem raceHasExactlyThreeOutcomes : Obligations.RaceHasExactlyThreeOutcomes := by
  rintro y₀ rfl
  refine ⟨fun schedule hidle => ?_, fun b hb => ?_⟩
  · have hstart : Racing ((Codec.reset raceParams).take (raceSet 0)) ((Codec.reset raceParams).take (raceSet 1)) [] :=
      ⟨rfl, rfl, by decide⟩
    obtain ⟨x, z, _, hx, hz, _, _, hview⟩ := Shared.run_pair_rule Racing (fun _ _ _ h => h.advance_first)
      (fun _ _ _ h => h.advance_second) schedule hstart hidle
    exact raceViews_idle _ hview hx hz
  · simp only [List.mem_cons, List.not_mem_nil, or_false] at hb
    rcases hb with rfl | rfl | rfl
    · exact ⟨[0, 0, 1, 1], by decide⟩
    · exact ⟨[0, 1, 0, 1], by decide⟩
    · exact ⟨[0, 1, 1, 0], by decide⟩

end Sys2Proof.Machine


/-! ## 30_encoding: ports, descriptors and texts

The command that port values present, the words that spell a command, the packed descriptor taken apart and put
together again, the text of a command, and what the response interface shows; then O2, O5, O1, O4, O3, O23 and O51
from these. -/

namespace Sys2Proof

/-! ### The function code -/

theorem functionCode_getLsbD (fn : BitVec 3) :
    functionCode (fn.getLsbD 2) (fn.getLsbD 1) (endianOfBit (fn.getLsbD 0)) = fn := by
  revert fn
  decide

@[simp] theorem functionCode_path (path direction : Bool) (e : Endian) :
    (functionCode path direction e)[2] = path := by
  cases path <;> cases direction <;> cases e <;> rfl

@[simp] theorem functionCode_direction (path direction : Bool) (e : Endian) :
    (functionCode path direction e)[1] = direction := by
  cases path <;> cases direction <;> cases e <;> rfl

@[simp] theorem functionCode_endian (path direction : Bool) (e : Endian) :
    endianOfBit (functionCode path direction e)[0] = e := by
  cases path <;> cases direction <;> cases e <;> rfl

section ports

variable (e : Endian) (size off : Nat) (bit : Fin 8) (n : BitVec 8) (v : Value)

/-- 30_encoding R60, R67: the Aligned Byte Codec ignores the bit offset, and a decode ignores the value. -/
theorem decodePorts_enca : decodePorts ⟨functionCode false false e, size, off, bit, n, v⟩ =
    .enca e size off v n.toNat := by
  simp [decodePorts]

theorem decodePorts_deca : decodePorts ⟨functionCode false true e, size, off, bit, n, v⟩ =
    .deca e size off n.toNat := by
  simp [decodePorts]

theorem decodePorts_encb : decodePorts ⟨functionCode true false e, size, off, bit, n, v⟩ =
    .encb e size off bit v n.toNat := by
  simp [decodePorts]

theorem decodePorts_decb : decodePorts ⟨functionCode true true e, size, off, bit, n, v⟩ =
    .decb e size off bit n.toNat := by
  simp [decodePorts]

end ports

@[simp] theorem decodePorts_byteOffset (p : CmdPorts) : (decodePorts p).byteOffset = p.byteOffset := by
  unfold decodePorts
  split <;> rfl

@[simp] theorem decodePorts_count (p : CmdPorts) : (decodePorts p).count = p.count.toNat := by
  unfold decodePorts
  split <;> rfl

/-! ### Commands and the ports that present them -/

/-- 30_encoding R67: the fields that the command of these ports does not use are 0: the bit offset on the path of
the Aligned Byte Codec, the value in a decode. -/
def CmdPorts.UnusedFieldsZero (p : CmdPorts) : Prop :=
  (p.fn.getLsbD 2 = false → p.bitOffset = 0) ∧ (p.fn.getLsbD 1 = true → p.value = 0)

theorem encodePorts_unusedFieldsZero (i : Instr) : (encodePorts i).UnusedFieldsZero := by
  cases i <;> simp [encodePorts, CmdPorts.UnusedFieldsZero]

theorem encodePorts_bufferSize (i : Instr) : (encodePorts i).bufferSize = i.bufferSize := by
  cases i <;> rfl

theorem encodePorts_byteOffset (i : Instr) : (encodePorts i).byteOffset = i.byteOffset := by
  cases i <;> rfl

/-- 30_encoding R73: a count that the 8-bit port carries is the only condition. -/
theorem decodePorts_encodePorts {i : Instr} (h : i.count < 2 ^ 8) : decodePorts (encodePorts i) = i := by
  have hcount : (BitVec.ofNat 8 i.count).toNat = i.count := by
    rw [BitVec.toNat_ofNat, Nat.mod_eq_of_lt h]
  cases i with
  | enca e size off v n => exact (decodePorts_enca ..).trans (congrArg (Instr.enca e size off v) hcount)
  | deca e size off n => exact (decodePorts_deca ..).trans (congrArg (Instr.deca e size off) hcount)
  | encb e size off bit v n => exact (decodePorts_encb ..).trans (congrArg (Instr.encb e size off bit v) hcount)
  | decb e size off bit n => exact (decodePorts_decb ..).trans (congrArg (Instr.decb e size off bit) hcount)

/-- The ports that present a command are determined by it once the fields it does not use are 0. -/
theorem encodePorts_decodePorts {p : CmdPorts} (h : p.UnusedFieldsZero) : encodePorts (decodePorts p) = p := by
  obtain ⟨fn, size, off, bit, n, v⟩ := p
  obtain ⟨hbit, hvalue⟩ := h
  rw [← functionCode_getLsbD fn] at hbit hvalue ⊢
  generalize fn.getLsbD 2 = path, fn.getLsbD 1 = direction, endianOfBit (fn.getLsbD 0) = e at *
  match path, direction with
  | false, false =>
    obtain rfl : bit = 0 := hbit (by simp)
    simp [decodePorts_enca, encodePorts]
  | false, true =>
    obtain rfl : bit = 0 := hbit (by simp)
    obtain rfl : v = 0 := hvalue (by simp)
    simp [decodePorts_deca, encodePorts]
  | true, false => simp [decodePorts_encb, encodePorts]
  | true, true =>
    obtain rfl : v = 0 := hvalue (by simp)
    simp [decodePorts_decb, encodePorts]

/-! ### The packed descriptor -/

/-- 30_encoding R68: CMD[7:6] and CMD[31:16] are 0. -/
def ReservedFieldsZero (w : BitVec 160) : Prop :=
  w.extractLsb' 6 2 = 0#2 ∧ w.extractLsb' 16 16 = 0#16

/-- 30_encoding R66: the eight fields of the layout are adjacent and cover the 160 bits. -/
theorem append_fields (w : BitVec 160) :
    w.extractLsb' 96 64 ++ w.extractLsb' 64 32 ++ w.extractLsb' 32 32 ++ w.extractLsb' 16 16 ++
      w.extractLsb' 8 8 ++ w.extractLsb' 6 2 ++ w.extractLsb' 3 3 ++ w.extractLsb' 0 3 = w := by
  have join {lo mid len : Nat} (len' : Nat) (h : mid = lo + len) :
      w.extractLsb' mid len' ++ w.extractLsb' lo len = w.extractLsb' lo (len' + len) :=
    BitVec.extractLsb'_append_extractLsb'_eq_extractLsb' h
  rw [join (mid := 96) (lo := 64) _ rfl, join (mid := 64) (lo := 32) _ rfl, join (mid := 32) (lo := 16) _ rfl,
    join (mid := 16) (lo := 8) _ rfl, join (mid := 8) (lo := 6) _ rfl, join (mid := 6) (lo := 3) _ rfl,
    join (mid := 3) (lo := 0) _ rfl]
  exact extract_all w

/-- Laying out the fields of a descriptor again gives it back. -/
theorem packDescriptor_descriptorPorts {w : BitVec 160} (h : ReservedFieldsZero w) :
    packDescriptor (descriptorPorts w) = w := by
  obtain ⟨hlow, hhigh⟩ := h
  have hbit : BitVec.ofFin (w := 3) (w.extractLsb' 3 3).toFin = w.extractLsb' 3 3 := rfl
  simp only [packDescriptor, descriptorPorts, BitVec.ofNat_toNat, BitVec.setWidth_eq, hbit]
  rw [← hlow, ← hhigh, append_fields]

/-- A packed descriptor has its reserved fields 0 (30_encoding R66). -/
theorem reservedFieldsZero_pack (p : CmdPorts) : ReservedFieldsZero (packDescriptor p) :=
  ⟨pack_reservedLow p, pack_reservedHigh p⟩

/-- 30_encoding R68, R73: the words that spell a command, and the command each of them spells. -/
theorem decode_eq_ok_iff {w : BitVec 160} {i : Instr} :
    decode w = .ok i ↔
      ReservedFieldsZero w ∧ (descriptorPorts w).UnusedFieldsZero ∧ decodePorts (descriptorPorts w) = i := by
  unfold decode
  split_ifs with hreserved hbit hvalue
  · exact iff_of_false (by simp) fun ⟨⟨hlow, hhigh⟩, _⟩ => hreserved.elim (· hlow) (· hhigh)
  · exact iff_of_false (by simp) fun ⟨_, ⟨hzero, _⟩, _⟩ => hbit.2 (hzero hbit.1)
  · exact iff_of_false (by simp) fun ⟨_, ⟨_, hzero⟩, _⟩ => hvalue.2 (hzero hvalue.1)
  · have hreserved : ReservedFieldsZero w := by simpa [ReservedFieldsZero] using hreserved
    have hunused : (descriptorPorts w).UnusedFieldsZero := ⟨not_and_not_right.mp hbit, not_and_not_right.mp hvalue⟩
    simp [hreserved, hunused]

theorem wellFormed_iff {i : Instr} :
    WellFormed i = true ↔ i.bufferSize < 2 ^ 32 ∧ i.byteOffset < 2 ^ 32 ∧ i.count < 2 ^ 8 := by
  simp [WellFormed, and_assoc]

/-- What a descriptor spells fits the descriptor's fields (30_encoding R66). -/
theorem wellFormed_decodePorts_descriptorPorts (w : BitVec 160) :
    WellFormed (decodePorts (descriptorPorts w)) = true := by
  rw [wellFormed_iff, Machine.decodePorts_bufferSize, decodePorts_byteOffset, decodePorts_count]
  exact ⟨BitVec.isLt _, BitVec.isLt _, BitVec.isLt _⟩

theorem descriptorPorts_unusedFieldsZero {w : BitVec 160} :
    (descriptorPorts w).UnusedFieldsZero ↔
      (w.getLsbD 2 = false → w.extractLsb' 3 3 = 0#3) ∧ (w.getLsbD 1 = true → w.extractLsb' 96 64 = 0#64) := by
  have hfn {k : Nat} (hk : k < 3) : (descriptorPorts w).fn.getLsbD k = w.getLsbD k := by
    simp [descriptorPorts, hk]
  have hbit : (descriptorPorts w).bitOffset = 0 ↔ w.extractLsb' 3 3 = 0#3 :=
    ⟨fun h => BitVec.eq_of_toFin_eq h, fun h => congrArg BitVec.toFin h⟩
  rw [CmdPorts.UnusedFieldsZero, hfn (k := 2) (by omega), hfn (k := 1) (by omega), hbit]
  rfl

/-- 30_encoding R68: a word spells no command exactly when a reserved or an unused field is not 0. -/
theorem exists_decode_eq_error_iff {w : BitVec 160} :
    (∃ why, decode w = .error why) ↔ ¬ (ReservedFieldsZero w ∧ (descriptorPorts w).UnusedFieldsZero) := by
  have hok : (∃ i, decode w = .ok i) ↔ ReservedFieldsZero w ∧ (descriptorPorts w).UnusedFieldsZero := by
    simp [decode_eq_ok_iff]
  rw [← hok]
  cases decode w <;> simp

/-- 30_encoding R73: the packed fields read back as the ports of the command, whose unused fields are 0. -/
theorem decode_encode {i : Instr} (h : WellFormed i = true) : decode (encode i) = .ok i := by
  obtain ⟨hsize, hoff, hcount⟩ := wellFormed_iff.mp h
  have hports : descriptorPorts (encode i) = encodePorts i :=
    descriptorPorts_pack _ (by rwa [encodePorts_bufferSize]) (by rwa [encodePorts_byteOffset])
  rw [decode_eq_ok_iff, hports]
  exact ⟨reservedFieldsZero_pack _, encodePorts_unusedFieldsZero i, decodePorts_encodePorts hcount⟩

/-- 30_encoding R73: a word that spells a command is the one descriptor of it. -/
theorem encode_of_decode {w : BitVec 160} {i : Instr} (h : decode w = .ok i) : encode i = w := by
  obtain ⟨hreserved, hunused, rfl⟩ := decode_eq_ok_iff.mp h
  rw [encode, encodePorts_decodePorts hunused, packDescriptor_descriptorPorts hreserved]

end Sys2Proof

namespace Sys2Proof.Machine

/-! ### The encoding in both directions -/

/-- Settles O2: the fields of a descriptor and the ports that present a command determine each other. -/
theorem decodeAndEncodeAgree : Obligations.DecodeAndEncodeAgree := by
  refine ⟨fun i h => decode_encode h, fun w i h => ⟨?_, encode_of_decode h⟩, fun i h => decodePorts_encodePorts h⟩
  obtain ⟨_, _, rfl⟩ := decode_eq_ok_iff.mp h
  exact wellFormed_decodePorts_descriptorPorts w

/-- Settles O5: the eight codes are `functionCode` of the two paths, the two directions and the two endiannesses. -/
theorem functionCodeSelectsCommand : Obligations.FunctionCodeSelectsCommand := fun size off bit n v =>
  ⟨decodePorts_enca .le size off bit n v, decodePorts_enca .be size off bit n v,
    decodePorts_deca .le size off bit n v, decodePorts_deca .be size off bit n v,
    decodePorts_encb .le size off bit n v, decodePorts_encb .be size off bit n v,
    decodePorts_decb .le size off bit n v, decodePorts_decb .be size off bit n v⟩

/-- Settles O1: each word is evaluated field by field. -/
theorem decodesWrittenOutWords : Obligations.DecodesWrittenOutWords := by
  unfold Obligations.DecodesWrittenOutWords
  decide

/-- Settles O4: a word spells a command exactly when its reserved and unused fields are 0, and the step hands the
word to the decoder. -/
theorem invalidDescriptorsAreRefused : Obligations.InvalidDescriptorsAreRefused := by
  refine ⟨fun w => ?_, fun s w rest why hhost hdec => ?_⟩
  · rw [exists_decode_eq_error_iff, descriptorPorts_unusedFieldsZero, ReservedFieldsZero]
    simp only [not_and_or, Classical.not_imp, or_assoc, ne_eq]
  · rw [step_of_host_cons hhost]
    exact issueDescriptor_of_error hdec _

/-! ### The text of a command -/

theorem dropWhile_isBlank_of_head {cs : List Char} (h : ∀ c ∈ cs.head?, isBlank c = false) :
    cs.dropWhile isBlank = cs := by
  cases cs with
  | nil => rfl
  | cons c rest => simp [h c rfl]

theorem trimBlanks_of_ends {cs : List Char} (hfirst : ∀ c ∈ cs.head?, isBlank c = false)
    (hlast : ∀ c ∈ cs.getLast?, isBlank c = false) : trimBlanks cs = cs := by
  rw [trimBlanks, dropWhile_isBlank_of_head hfirst, dropWhile_isBlank_of_head (by simpa using hlast),
    List.reverse_reverse]

/-- The operands end with a digit. -/
theorem writeOperands_getLast (n : Nat) (rest : List Nat) :
    ∃ c, (writeOperands (n :: rest)).getLast? = some c ∧ isBlank c = false := by
  induction rest generalizing n with
  | nil =>
    have hne := writeNumeral_ne_nil n
    exact ⟨_, List.getLast?_eq_some_getLast hne, (writeNumeral_facts n).2 _ (List.getLast_mem hne)⟩
  | cons m rest ih =>
    obtain ⟨c, hc, hblank⟩ := ih m
    exact ⟨c, by simp [writeOperands, List.getLast?_append, List.getLast?_cons, hc], hblank⟩

/-- 30_encoding R71: the numerals between the commas are read back in order, the blank in front of each dropped. -/
theorem readOperands_writeOperands (n : Nat) (rest : List Nat) :
    readOperands (' ' :: writeOperands (n :: rest)) = some (n :: rest) := by
  have hcomma (n : Nat) : ',' ∉ ' ' :: writeNumeral n := by simp [(writeNumeral_facts n).1]
  have hread (n : Nat) : readNumeral (trimBlanks (' ' :: writeNumeral n)) = some n := by
    rw [(trimBlanks_of_noBlank _ (writeNumeral_facts n).2).2, readNumeral_writeNumeral]
  induction rest generalizing n with
  | nil => simp [readOperands, writeOperands, splitAtChar_of_not_mem _ _ (hcomma n), hread]
  | cons m rest ih =>
    have hsplit : splitAtChar ',' (' ' :: writeOperands (n :: m :: rest)) =
        (' ' :: writeNumeral n) :: splitAtChar ',' (' ' :: writeOperands (m :: rest)) :=
      splitAtChar_append ',' (' ' :: writeNumeral n) _ (hcomma n)
    have ih := ih m
    rw [readOperands] at ih ⊢
    simp [hsplit, hread, ih]

theorem readEndian_endianText (e : Endian) : readEndian (endianText e) = some e := by
  cases e <;> rfl

theorem readValue_toNat (v : Value) : readValue v.toNat = some v := by
  simp [readValue, v.isLt]

theorem readBitOffset_val (bit : Fin 8) : readBitOffset bit.val = some bit := by
  simp [readBitOffset]

/-- 30_encoding R71: mnemonic, endianness and the operands in the source's order determine the command. -/
theorem readCommand_operandsOf (i : Instr) :
    readCommand (mnemonicText i) (endianOf i) (operandsOf i) = some i := by
  cases i <;> simp [readCommand, mnemonicText, endianOf, operandsOf, readValue_toNat, readBitOffset_val]

/-- The first word of a command's text. -/
def headText (i : Instr) : List Char :=
  mnemonicText i ++ '.' :: endianText (endianOf i)

theorem writeCommand_eq (i : Instr) : writeCommand i = headText i ++ ' ' :: writeOperands (operandsOf i) := rfl

theorem headText_noBlank (i : Instr) : ∀ c ∈ headText i, isBlank c = false := by
  cases i with | _ e => cases e <;> simp [headText, mnemonicText, endianText, endianOf, isBlank]

theorem splitAtChar_headText (i : Instr) :
    splitAtChar '.' (headText i) = [mnemonicText i, endianText (endianOf i)] := by
  have hmnemonic : '.' ∉ mnemonicText i := by cases i <;> simp [mnemonicText]
  have hendian : '.' ∉ endianText (endianOf i) := by cases endianOf i <;> simp [endianText]
  rw [headText, splitAtChar_append _ _ _ hmnemonic, splitAtChar_of_not_mem _ _ hendian]

theorem operandsOf_eq_cons (i : Instr) : ∃ n rest, operandsOf i = n :: rest := by
  cases i <;> exact ⟨_, _, rfl⟩

/-- Settles O3: the text has no blank at its ends, its first blank ends the first word, and the parts of the word
and the operands read back. -/
theorem textIsReadBack : Obligations.TextIsReadBack := by
  intro i
  obtain ⟨n, rest, hops⟩ := operandsOf_eq_cons i
  have hword : (writeCommand i).takeWhile (fun c => !isBlank c) = headText i := by
    rw [writeCommand_eq, List.takeWhile_append_of_pos (by simpa using headText_noBlank i)]
    simp [isBlank]
  have htrim : trimBlanks (writeCommand i) = writeCommand i := by
    obtain ⟨c, hc, hblank⟩ := writeOperands_getLast n rest
    refine trimBlanks_of_ends ?_ ?_
    · cases i <;> simp [writeCommand, mnemonicText, isBlank]
    · simp [writeCommand_eq, hops, List.getLast?_append, List.getLast?_cons, hc, hblank]
  have hrest : (writeCommand i).drop (headText i).length = ' ' :: writeOperands (n :: rest) := by
    rw [writeCommand_eq, hops, List.drop_left]
  simp only [readCommandText, htrim, hword, splitAtChar_headText, readEndian_endianText, hrest,
    readOperands_writeOperands, Option.bind_some]
  rw [← hops, readCommand_operandsOf]

/-! ### The response interface -/

/-- 30_encoding R63: what the ports show once a command has completed, and what the host has been given. -/
theorem completion_ports (i : Instr) (s : State) :
    (completion i s).rspValid = true ∧
      (isEncode i = false → (completion i s).results = s.results ++ [(completion i s).rspValue]) ∧
      (isEncode i = true → (completion i s).results = s.results) := by
  obtain ⟨result, hresult, h⟩ := completion_eq i s
  rw [h, ← hresult]
  cases result <;> simp [State.rspValid, State.rspValue]

/-- Settles O23: a step that runs a command ends in the command's completion, and the other moves begin a step
without a response and complete nothing. -/
theorem responsePortsShowTheCompletion : Obligations.ResponsePortsShowTheCompletion := by
  refine ⟨fun s t m rest i hhost hcommand hstep => ?_, fun s t hhost hstep => ?_⟩
  · have hexec : exec i (s.begin rest) = .next t := by
      rw [← hstep]
      rcases hcommand with ⟨rfl, hwf⟩ | ⟨p, rfl, rfl⟩
      · rw [step_of_host_cons hhost]
        exact (issueDescriptor_of_ok (decode_encode hwf) _).symm
      · cases hfit : portsFit s.cfg.offW p with
        | true => exact (step_command_of_fit hhost hfit).symm
        | false =>
          rw [step_command_of_not_fit hhost hfit] at hstep
          cases hstep
    obtain ⟨_, rfl⟩ := exec_eq_next hexec
    exact completion_ports i (s.begin rest)
  · rcases step_cases hstep with ⟨_, rfl⟩ | ⟨_, _, _, _, rfl⟩ | ⟨i, hpresents, _⟩
    · exact ⟨rfl, rfl, rfl⟩
    · exact ⟨rfl, rfl, rfl⟩
    · rcases hhost with h | ⟨rest, h⟩ | ⟨a, b, rest, h⟩ <;> simp [h, HostMove.presents] at hpresents

/-! ### One command at a time -/

theorem portsCommand_of_fit {offW : Nat} {p : CmdPorts} (h : portsFit offW p = true) :
    portsCommand offW p = .ok (decodePorts p) := by
  simp [portsCommand, h]

theorem portsCommand_of_not_fit {offW : Nat} {p : CmdPorts} (h : portsFit offW p = false) :
    portsCommand offW p = .error .notPresentable := by
  simp [portsCommand, h]

theorem descriptorCommand_of_ok {w : BitVec 160} {i : Instr} (h : decode w = .ok i) :
    descriptorCommand w = .ok i := by
  simp [descriptorCommand, h]

theorem descriptorCommand_of_error {w : BitVec 160} {why : DecodeError} (h : decode w = .error why) :
    descriptorCommand w = .error (.invalidDescriptor why) := by
  simp [descriptorCommand, h]

section issue

variable {y : Shared} {k : Nat} {x : Codec}

theorem Shared.event_issue (hx : y.codecs[k]? = some x) (p : CmdPorts) :
    y.event (.issue k p) = y.issue k x (portsCommand x.params.offW p) := by
  simp only [Shared.event, hx]

theorem Shared.event_issueDescriptor (hx : y.codecs[k]? = some x) (w : BitVec 160) :
    y.event (.issueDescriptor k w) = y.issue k x (descriptorCommand w) := by
  simp only [Shared.event, hx]

theorem Shared.issue_error (why : Refusal) : y.issue k x (.error why) = .refused why := rfl

/-- 30_encoding R64: a command is not taken before the one in progress has completed. -/
theorem Shared.issue_of_busy (h : x.cmdReady = false) (i : Instr) : y.issue k x (.ok i) = .next y := by
  simp [Shared.issue, h]

theorem Shared.issue_of_ready (h : x.cmdReady = true) {i : Instr} (hsize : i.bufferSize ≤ y.memLen) :
    y.issue k x (.ok i) = .next (y.setCodec k (x.take i)) := by
  simp [Shared.issue, h, hsize]

theorem Shared.getElem?_setCodec_self (hx : y.codecs[k]? = some x) (z : Codec) :
    (y.setCodec k z).codecs[k]? = some z := by
  obtain ⟨hk, _⟩ := List.getElem?_eq_some_iff.mp hx
  exact List.getElem?_set_self hk

end issue

/-- Settles O51: both events present a command or an error to the same `Shared.issue`, which refuses an error, keeps
a busy codec as it is, and has a ready one take the command. -/
theorem oneCommandAtATime : Obligations.OneCommandAtATime := by
  intro y k x hx
  refine ⟨fun hbusy => ⟨fun p hfit => ?_, fun w i hdec => ?_⟩, fun p hfit => ?_, fun w why hdec => ?_,
    fun hready i ev hsize hpresents => ?_⟩
  · rw [Shared.event_issue hx, portsCommand_of_fit hfit, Shared.issue_of_busy hbusy]
  · rw [Shared.event_issueDescriptor hx, descriptorCommand_of_ok hdec, Shared.issue_of_busy hbusy]
  · rw [Shared.event_issue hx, portsCommand_of_not_fit hfit, Shared.issue_error]
  · rw [Shared.event_issueDescriptor hx, descriptorCommand_of_error hdec, Shared.issue_error]
  · have hevent : y.event ev = y.issue k x (.ok i) := by
      rcases hpresents with ⟨p, rfl, hfit, rfl⟩ | ⟨w, rfl, hdec⟩
      · rw [Shared.event_issue hx, portsCommand_of_fit hfit]
      · rw [Shared.event_issueDescriptor hx, descriptorCommand_of_ok hdec]
    exact ⟨_, _, hevent.trans (Shared.issue_of_ready hready hsize), rfl, Shared.getElem?_setCodec_self hx _,
      rfl, rfl, rfl⟩

end Sys2Proof.Machine

/-! ## 40_aligned_byte_codec: the aligned path, and the frame of every command

What an encode and a decode leave unchanged, what a command that makes no access delivers, and the bytes that ENCA
writes and DECA gathers; then O15, O16, O20, O21, O27, O28 and O29 from these. -/

namespace Sys2Proof.Machine

/-! ### The span test and the selector -/

theorem spanFail_eq_true {size off n : Nat} : spanFail size off n = true ↔ size < off + n ∨ 8 < n := by
  simp [spanFail]

/-- 60_exceptions R153: the class is OK exactly when the span test of 40_aligned R80 passes. -/
theorem alignedClass_eq_ok {size off n : Nat} : alignedClass size off n = .ok ↔ off + n ≤ size ∧ n ≤ 8 := by
  unfold alignedClass
  split_ifs
  · exact ⟨nofun, by omega⟩
  · exact ⟨nofun, by omega⟩
  · exact ⟨fun _ => by omega, fun _ => rfl⟩

theorem select_eq_ite (e : Endian) (n i : Nat) : select e n i = if e = .le then i else n - 1 - i := by
  cases e <;> rfl

/-! ### The frame of an encode and of a decode -/

/-- 10_state R14: an encode has no result, so beside the buffer and its accesses it changes the response only. -/
theorem completion_frame_of_encode {i : Instr} (h : isEncode i = true) (s : State) :
    (completion i s).rsp = some { result := none, status := condClass i } ∧ (completion i s).cfg = s.cfg ∧
      (completion i s).host = s.host ∧ (completion i s).results = s.results ∧ (completion i s).tick = s.tick := by
  obtain ⟨result, hresult, heq⟩ := completion_eq i s
  obtain rfl : result = none := Option.isNone_iff_eq_none.mp (hresult.trans h)
  rw [heq]
  exact ⟨rfl, rfl, rfl, List.append_nil _, rfl⟩

/-- 42_codec_laws R141: a decode leaves the buffer as it is. -/
theorem completion_buf_of_decode {i : Instr} (h : isEncode i = false) (s : State) :
    (completion i s).buf = s.buf := by
  cases i with
  | enca | encb => cases h
  | deca e size off n => exact congrArg (fun x => x.2.buf) (decaBytes_eq e size off n s)
  | decb e size off bit n => exact congrArg (fun x => x.2.buf) (decbBits_eq e size (startBit off bit) n s)

/-- 10_state R14, 42_codec_laws R141: beside its accesses a decode changes the response and the results, which show
the same one result. -/
theorem completion_of_decode {i : Instr} (h : isEncode i = false) (s : State) :
    ∃ r, completion i s =
      { s with
        bus := (completion i s).bus
        rsp := some { result := some r, status := condClass i }
        results := s.results ++ [r] } := by
  obtain ⟨result, hresult, heq⟩ := completion_eq i s
  rw [completion_buf_of_decode h] at heq
  cases result with
  | none => cases hresult.trans h
  | some r => exact ⟨r, heq⟩

/-- Settles O20: an encode changes the buffer, the accesses and the response, and spares the bytes outside its
footprint. -/
theorem encodeFrame : Obligations.EncodeFrame := by
  intro i s t hencode hexec
  obtain ⟨_, rfl⟩ := exec_eq_next hexec
  obtain ⟨_, hcfg, hhost, hresults, htick⟩ := completion_frame_of_encode hencode s
  exact ⟨hcfg, hhost, hresults, htick, fun a ha => completion_spares (.inr ha) s⟩

/-- Settles O21: a decode changes the accesses, the response and the results only. -/
theorem decodeFrame : Obligations.DecodeFrame := by
  intro i s t hdecode hexec
  obtain ⟨_, rfl⟩ := exec_eq_next hexec
  obtain ⟨r, heq⟩ := completion_of_decode hdecode s
  rw [heq]
  exact ⟨rfl, fun _ => rfl, rfl, rfl, rfl, r, rfl, rfl⟩

/-! ### A command that makes no access -/

/-- 20_memory R39: without a turn that makes an access a command leaves the buffer and its port alone, and a decode has
gathered 0. -/
theorem completion_of_no_turns {i : Instr} (h : activeTurns i = 0) (s : State) :
    (completion i s).buf = s.buf ∧ (completion i s).bus = s.bus ∧
      (completion i s).rsp =
        some { result := if isEncode i then none else some 0, status := condClass i } := by
  cases i with
  | enca e size off v n => rw [completion, encaBytes_eq_ascend, h]; exact ⟨rfl, rfl, rfl⟩
  | deca e size off n => rw [completion, decaBytes_eq_ascend, h]; exact ⟨rfl, rfl, rfl⟩
  | encb e size off bit v n => rw [completion, encbBits_eq_ascend, h]; exact ⟨rfl, rfl, rfl⟩
  | decb e size off bit n => rw [completion, decbBits_eq_ascend, h]; exact ⟨rfl, rfl, rfl⟩

/-- 40_aligned R87, 41_bit_codec R111: the loop of a command with a count of 0 is empty. -/
theorem activeTurns_of_count_eq_zero {i : Instr} (h : i.count = 0) : activeTurns i = 0 := by
  cases i <;> simp only [Instr.count] at h <;> simp [activeTurns, inRangeBits, h]

/-- Settles O27: a count of 0 leaves the loop without a turn. -/
theorem zeroCountDoesNothing : Obligations.ZeroCountDoesNothing := by
  intro i s hsize hcount
  obtain ⟨hbuf, hbus, hrsp⟩ := completion_of_no_turns (activeTurns_of_count_eq_zero hcount) s
  exact ⟨_, _, exec_of_bufferSize_le hsize, hbuf, hbus, hrsp⟩

/-! ### ENCA -/

/-- 40_aligned R82: what a byte of the buffer holds once ENCA has completed. -/
theorem completion_enca_read (e : Endian) (size off : Nat) (v : Value) (n : Nat) (s : State) (a : Nat) :
    Memory.read (completion (.enca e size off v n) s).buf a =
      if off + n ≤ size ∧ n ≤ 8 ∧ off ≤ a ∧ a < off + n then valueByte v (select e n (a - off))
      else Memory.read s.buf a :=
  encaBytes_read e size off v n s a

/-- 40_aligned R82: ENCA makes one write for each byte of the span, of the byte it then holds. -/
theorem completion_enca_bus (e : Endian) (size off : Nat) (v : Value) (n : Nat) (s : State) :
    (completion (.enca e size off v n) s).bus = s.bus ++
      if off + n ≤ size ∧ n ≤ 8 then
        (List.range n).map fun i =>
          Access.write (off + i) (Memory.read (completion (.enca e size off v n) s).buf (off + i))
      else [] := by
  refine (congrArg State.bus (encaBytes_eq e size off v n s)).trans (congrArg (s.bus ++ ·) ?_)
  by_cases hspan : off + n ≤ size ∧ n ≤ 8
  · rw [if_pos hspan, if_pos hspan]
    refine List.map_congr_left fun i hi => ?_
    have hin : off + n ≤ size ∧ n ≤ 8 ∧ off ≤ off + i ∧ off + i < off + n := by
      have := List.mem_range.mp hi
      omega
    rw [completion_enca_read, if_pos hin, Nat.add_sub_cancel_left]
  · rw [if_neg hspan, if_neg hspan]

/-- Settles O15: the buffer and the accesses of ENCA's completion, the frame of an encode, and the function code that
the descriptor carries. -/
theorem encaWritesTheSpan : Obligations.EncaWritesTheSpan := by
  intro e size off v n s hsize
  refine ⟨⟨_, exec_of_bufferSize_le hsize, fun a => ?_, completion_enca_bus e size off v n s,
    completion_frame_of_encode rfl s⟩, ?_⟩
  · rw [completion_enca_read, select_eq_ite, valueByte]
  · exact (Laws.FunctionCode.enca e size off v n).trans (by cases e <;> rfl)

/-- Settles O28: a failed span test leaves ENCA without a turn; a passed one has it write the span, in order. -/
theorem encaIsAllOrNothing : Obligations.EncaIsAllOrNothing := by
  intro e size off v n s hsize
  refine ⟨_, exec_of_bufferSize_le hsize, fun hfail => ?_, fun hspan => ?_⟩
  · have hturns : activeTurns (.enca e size off v n) = 0 := if_pos (spanFail_eq_true.mpr hfail)
    obtain ⟨hbuf, hbus, _⟩ := completion_of_no_turns hturns s
    exact ⟨hbuf, hbus⟩
  · refine ⟨_, completion_enca_bus e size off v n s, ?_, fun a ha => ?_⟩
    · rw [if_pos hspan, List.map_map]
      rfl
    · rw [completion_enca_read, if_neg (by omega)]

/-! ### DECA -/

/-- 40_aligned R85: the whole state in which DECA completes. -/
theorem completion_deca (e : Endian) (size off n : Nat) (s : State) :
    completion (.deca e size off n) s =
      { s with
        rsp := some { result := some (BitVec.ofNat 64 (decaBytes e size off n s).1), status := alignedClass size off n }
        results := s.results ++ [BitVec.ofNat 64 (decaBytes e size off n s).1]
        bus := s.bus ++
          if off + n ≤ size ∧ n ≤ 8 then
            (List.range n).map fun i => Access.read (off + i) (Memory.read s.buf (off + i))
          else [] } := by
  simp only [completion, decaBytes_eq]
  rfl

/-- 40_aligned R85: when the span test passes, the bytes of DECA's result are those of the span under the selector, and
the result ends with them. -/
theorem decaBytes_result (e : Endian) {size off n : Nat} (s : State) (h : off + n ≤ size ∧ n ≤ 8) :
    (∀ i, i < n →
      valueByte (BitVec.ofNat 64 (decaBytes e size off n s).1) (select e n i) = Memory.read s.buf (off + i)) ∧
    ∀ j, 8 * n ≤ j → (BitVec.ofNat 64 (decaBytes e size off n s).1).getLsbD j = false := by
  obtain ⟨hdigit, hlt⟩ := sumUpTo_result e 8 n (fun i => (Memory.read s.buf (off + i)).toNat)
    (fun i _ => (Memory.read s.buf (off + i)).isLt) (by omega)
  rw [decaBytes_eq, if_pos h]
  refine ⟨fun i hi => BitVec.eq_of_toNat_eq ?_, fun j hj => ?_⟩
  · rw [valueByte, BitVec.extractLsb'_toNat, Nat.shiftRight_eq_div_pow]
    exact hdigit i hi
  · exact Nat.testBit_lt_two_pow (hlt.trans_le (Nat.pow_le_pow_right (by decide) hj))

/-- 40_aligned R86: a failed span test and a span of zeros alike give DECA the result 0. -/
theorem decaBytes_result_eq_zero (e : Endian) {size off n : Nat} {s : State}
    (h : off + n ≤ size ∧ n ≤ 8 → ∀ i, i < n → Memory.read s.buf (off + i) = 0) :
    (decaBytes e size off n s).1 = 0 := by
  rw [decaBytes_eq]
  by_cases hspan : off + n ≤ size ∧ n ≤ 8
  · have hzero : ∀ i, i < n → (Memory.read s.buf (off + i)).toNat * 2 ^ (8 * select e n i) = 0 := fun i hi => by
      simp [h hspan i hi]
    simp only [if_pos hspan, sumUpTo_congr hzero, sumUpTo_eq_sum, Finset.sum_const_zero]
  · exact if_neg hspan

/-- Settles O16: the state of DECA's completion, the bytes of its result, and the function code that the descriptor
carries. -/
theorem decaReadsTheSpan : Obligations.DecaReadsTheSpan := by
  intro e size off n s hsize
  refine ⟨⟨_, _, exec_of_bufferSize_le hsize, completion_deca e size off n s, fun hspan => ?_, fun hfail => ?_⟩, ?_⟩
  · obtain ⟨hbytes, habove⟩ := decaBytes_result e s hspan
    refine ⟨fun i hi => ?_, habove⟩
    rw [← select_eq_ite]
    exact hbytes i hi
  · rw [decaBytes_result_eq_zero e fun hspan => absurd hspan hfail]
    rfl
  · exact (Laws.FunctionCode.deca e size off n).trans (by cases e <;> rfl)

/-- Settles O29: the result is 0 after a failed span test and over a span of zeros; the class is OK exactly in the
second case. -/
theorem decaIsZeroOnFailure : Obligations.DecaIsZeroOnFailure := by
  refine ⟨fun e size off n s hsize hfail => ?_, fun e size off n s hsize hoff hn hzero => ?_⟩
  · have hturns : activeTurns (.deca e size off n) = 0 := if_pos (spanFail_eq_true.mpr hfail)
    obtain ⟨hbuf, hbus, hrsp⟩ := completion_of_no_turns hturns s
    refine ⟨_, _, exec_of_bufferSize_le hsize, hbus, hbuf, hrsp, fun hok => ?_⟩
    have := alignedClass_eq_ok.mp hok
    omega
  · refine ⟨_, exec_of_bufferSize_le hsize, ?_⟩
    rw [completion_deca, decaBytes_result_eq_zero e fun _ => hzero, alignedClass_eq_ok.mpr ⟨hoff, hn⟩]
    rfl

end Sys2Proof.Machine

/-! ## 41_bit_codec: the bits of a field

The bits that ENCB writes and DECB gathers, for a field inside the buffer and for one that overruns it; then O17,
O18, O30 and O31 from these. -/

namespace Sys2Proof.Machine

/-! ### The in-range bits of a field -/

theorem inRangeBits_le (size start n : Nat) : inRangeBits size start n ≤ n :=
  Nat.min_le_left _ _

/-- 41_bit_codec R102: the bits of a field that are in range are its first `m`. -/
theorem byteIndex_lt_iff {size start n i : Nat} (hi : i < n) :
    byteIndex (start + i) < size ↔ i < inRangeBits size start n := by
  unfold byteIndex inRangeBits
  omega

/-! ### ENCB -/

/-- 41_bit_codec R104: what a bit of the buffer holds once ENCB has completed. -/
theorem completion_encb_bufBit (e : Endian) (size off : Nat) (bit : Fin 8) (v : Value) (n : Nat) (s : State)
    (pos : Nat) :
    bufBit s.cfg.bitNum (completion (.encb e size off bit v n) s).buf pos =
      if n ≤ 64 ∧ startBit off bit ≤ pos ∧ pos < startBit off bit + n ∧ byteIndex pos < size then
        valueBit v (select e n (pos - startBit off bit))
      else bufBit s.cfg.bitNum s.buf pos :=
  encbBits_bufBit e size (startBit off bit) v n s pos

/-- 41_bit_codec R104: ENCB's plan is a read and then a write of the byte of each in-range bit. -/
theorem accessPlan_encb (e : Endian) (size off : Nat) (bit : Fin 8) (v : Value) (n : Nat) :
    accessPlan (.encb e size off bit v n) =
      if n ≤ 64 then
        (((List.range n).map fun i => byteIndex (startBit off bit + i)).filter (· < size)).flatMap
          fun a => [(false, a), (true, a)]
      else [] := by
  rw [accessPlan, footprint_encb]
  split <;> rfl

/-- Settles O17: the bits and the accesses of ENCB's completion, the frame of an encode, and the function code that
the descriptor carries. -/
theorem encbWritesTheBits : Obligations.EncbWritesTheBits := by
  intro e size off bit v n s hsize
  obtain ⟨acc, hbus, hplan⟩ := completion_bus (.encb e size off bit v n) s
  refine ⟨⟨_, acc, exec_of_bufferSize_le hsize, fun pos => ?_, hbus, ?_, completion_frame_of_encode rfl s⟩, ?_⟩
  · rw [completion_encb_bufBit, select_eq_ite]
    rfl
  · rw [hplan, accessPlan_encb]
    rfl
  · exact (Laws.FunctionCode.encb e size off bit v n).trans (by cases e <;> rfl)

/-- 41_bit_codec R105: in either order ENCB writes the `m` in-range bits of the field, drops the others, and accesses
bytes below `buffer_size` only. -/
theorem exec_encb_inRange (e : Endian) {size : Nat} (off : Nat) (bit : Fin 8) (v : Value) {n : Nat} {s : State}
    (hsize : size ≤ s.cfg.memLen) (hn : n ≤ 64) :
    ∃ t accesses, exec (.encb e size off bit v n) s = .next t ∧
      (∀ i, i < inRangeBits size (startBit off bit) n →
        bufBit s.cfg.bitNum t.buf (startBit off bit + i) = valueBit v (select e n i)) ∧
      (∀ pos, pos < startBit off bit ∨ startBit off bit + inRangeBits size (startBit off bit) n ≤ pos →
        bufBit s.cfg.bitNum t.buf pos = bufBit s.cfg.bitNum s.buf pos) ∧
      t.bus = s.bus ++ accesses ∧ ∀ x ∈ accesses, x.addr < size := by
  obtain ⟨acc, hbus, hbelow⟩ := completion_bus_below (.encb e size off bit v n) s
  refine ⟨_, acc, exec_of_bufferSize_le hsize, fun i hi => ?_, fun pos hpos => ?_, hbus, hbelow⟩
  · have hin : i < n := hi.trans_le (inRangeBits_le size _ n)
    rw [completion_encb_bufBit, if_pos ⟨hn, by omega, by omega, (byteIndex_lt_iff hin).mpr hi⟩, Nat.add_sub_cancel_left]
  · refine (completion_encb_bufBit e size off bit v n s pos).trans (if_neg ?_)
    rintro ⟨_, hfirst, hlast, hbyte⟩
    obtain ⟨i, rfl⟩ := Nat.exists_eq_add_of_le hfirst
    have hin := (byteIndex_lt_iff (Nat.add_lt_add_iff_left.mp hlast)).mp hbyte
    omega

/-- Settles O30: the in-range part of an ENCB, in each order. -/
theorem encbOverrunWritesTheInRangePart : Obligations.EncbOverrunWritesTheInRangePart := by
  rintro size off bit v n s hsize hn _ rfl
  exact ⟨exec_encb_inRange .le off bit v hsize hn, exec_encb_inRange .be off bit v hsize hn⟩

/-! ### DECB -/

/-- 41_bit_codec R108: the whole state in which DECB completes. -/
theorem completion_decb (e : Endian) (size off : Nat) (bit : Fin 8) (n : Nat) (s : State) :
    completion (.decb e size off bit n) s =
      { s with
        rsp := some
          { result := some (BitVec.ofNat 64 (decbBits e size (startBit off bit) n s).1)
            status := bitClass size (startBit off bit) n }
        results := s.results ++ [BitVec.ofNat 64 (decbBits e size (startBit off bit) n s).1]
        bus := s.bus ++
          if n ≤ 64 then
            (((List.range n).map fun i => byteIndex (startBit off bit + i)).filter (· < size)).map
              fun a => Access.read a (Memory.read s.buf a)
          else [] } := by
  simp only [completion, decbBits_eq]
  rfl

/-- 41_bit_codec R108: the bits of DECB's result are those of the field under the selector, an out-of-range one being
0, and the result ends with them. -/
theorem decbBits_result (e : Endian) (size start : Nat) {n : Nat} (s : State) (hn : n ≤ 64) :
    (∀ i, i < n → (BitVec.ofNat 64 (decbBits e size start n s).1).getLsbD (select e n i) =
      (decide (byteIndex (start + i) < size) && bufBit s.cfg.bitNum s.buf (start + i))) ∧
    ∀ j, n ≤ j → (BitVec.ofNat 64 (decbBits e size start n s).1).getLsbD j = false := by
  obtain ⟨hdigit, hlt⟩ := sumUpTo_result e 1 n
    (fun i => (decide (byteIndex (start + i) < size) && bufBit s.cfg.bitNum s.buf (start + i)).toNat)
    (fun i _ => Bool.toNat_lt _) (by omega)
  simp only [Nat.one_mul, Nat.pow_one] at hdigit hlt
  rw [decbBits_eq, if_pos hn]
  refine ⟨fun i hi => ?_, fun j hj => ?_⟩
  · rw [BitVec.getLsbD, Nat.testBit_eq_decide_div_mod_eq, hdigit i hi]
    simp
  · exact Nat.testBit_lt_two_pow (hlt.trans_le (Nat.pow_le_pow_right (by decide) hj))

/-- Settles O18: the state of DECB's completion, the bits of its result, and the function code that the descriptor
carries. -/
theorem decbReadsTheBits : Obligations.DecbReadsTheBits := by
  intro e size off bit n s hsize
  refine ⟨⟨_, _, exec_of_bufferSize_le hsize, completion_decb e size off bit n s, fun hn => ?_, fun hn => ?_⟩, ?_⟩
  · obtain ⟨hbits, habove⟩ := decbBits_result e size (startBit off bit) s hn
    refine ⟨fun i hi => ?_, habove⟩
    rw [← select_eq_ite]
    exact hbits i hi
  · rw [decbBits_eq, if_neg (Nat.not_le.mpr hn)]
    rfl
  · exact (Laws.FunctionCode.decb e size off bit n).trans (by cases e <;> rfl)

/-- 41_bit_codec R109: in either order the `m` in-range bits of DECB's result come from the buffer and every other bit
is 0. -/
theorem decbBits_result_inRange (e : Endian) (size start : Nat) {n : Nat} (s : State) (hn : n ≤ 64) :
    (∀ i, i < inRangeBits size start n →
      (BitVec.ofNat 64 (decbBits e size start n s).1).getLsbD (select e n i) =
        bufBit s.cfg.bitNum s.buf (start + i)) ∧
    ∀ j, (∀ i, i < inRangeBits size start n → select e n i ≠ j) →
      (BitVec.ofNat 64 (decbBits e size start n s).1).getLsbD j = false := by
  obtain ⟨hbits, habove⟩ := decbBits_result e size start s hn
  refine ⟨fun i hi => ?_, fun j hj => ?_⟩
  · have hin : i < n := hi.trans_le (inRangeBits_le size start n)
    rw [hbits i hin, decide_eq_true ((byteIndex_lt_iff hin).mpr hi), Bool.true_and]
  · rcases Nat.lt_or_ge j n with hlt | hge
    · have hout : ¬ select e n j < inRangeBits size start n := fun h => hj _ h (select_select hlt)
      have hbit := hbits (select e n j) (select_lt hlt)
      rwa [select_select hlt, decide_eq_false (mt (byteIndex_lt_iff (select_lt hlt)).mp hout), Bool.false_and] at hbit
    · exact habove j hge

/-- 41_bit_codec R109: with no bit in range DECB's result is 0 and the buffer is not read. -/
theorem completion_decb_of_none_inRange (e : Endian) {size off : Nat} {bit : Fin 8} {n : Nat} (s : State)
    (hn : n ≤ 64) (hm : inRangeBits size (startBit off bit) n = 0) :
    BitVec.ofNat 64 (decbBits e size (startBit off bit) n s).1 = 0 ∧
      (completion (.decb e size off bit n) s).bus = s.bus := by
  have hturns : activeTurns (.decb e size off bit n) = 0 := by
    rw [activeTurns, widthFail_eq_false.mpr hn, hm]
    rfl
  obtain ⟨_, hbus, _⟩ := completion_of_no_turns hturns s
  exact ⟨by rw [decbBits_eq_ascend, hturns]; rfl, hbus⟩

/-- Settles O31: the in-range part of a DECB, in each order; under BE the selector puts it in the high `m` bits. -/
theorem decbOverrunReadsTheInRangePart : Obligations.DecbOverrunReadsTheInRangePart := by
  rintro size off bit n s hsize hn m rfl
  obtain ⟨hle_bits, hle_zero⟩ := decbBits_result_inRange .le size (startBit off bit) s hn
  obtain ⟨hbe_bits, hbe_zero⟩ := decbBits_result_inRange .be size (startBit off bit) s hn
  refine ⟨⟨_, _, exec_of_bufferSize_le hsize, rfl, hle_bits, fun j hj => hle_zero j fun i hi => ?_,
      completion_decb_of_none_inRange .le s hn⟩,
    ⟨_, _, exec_of_bufferSize_le hsize, rfl, hbe_bits, fun j hj => hbe_zero j fun i hi => ?_,
      completion_decb_of_none_inRange .be s hn⟩⟩
  · exact (hi.trans_le hj).ne
  · simp only [select, inRangeBits] at hi ⊢
    omega

end Sys2Proof.Machine

/-! ## 42_codec_laws: numbers by their bits

The sums of digits in which the laws are stated, read bit by bit, so that a law is an equation between two bits. -/

namespace Sys2Proof.Machine

/-! ### Sums of digits -/

/-- Bit `j` of a sum of digits of `w` bits is a bit of the digit it falls into. -/
theorem testBit_sumUpTo_digits {w n : Nat} {d : Nat → Nat} (hw : 0 < w) (hd : ∀ k, k < n → d k < 2 ^ w)
    (j : Nat) :
    (sumUpTo n fun k => d k * 2 ^ (w * k)).testBit j = (decide (j < w * n) && (d (j / w)).testBit (j % w)) := by
  by_cases hj : j < w * n
  · have hk : j / w < n := Nat.div_lt_of_lt_mul hj
    rw [← sumUpTo_digit w n d hd hk, Nat.testBit_mod_two_pow, Nat.testBit_div_two_pow, Nat.mod_add_div,
      decide_eq_true (Nat.mod_lt j hw), Bool.true_and, decide_eq_true hj, Bool.true_and]
  · have hlt : _ < 2 ^ j := (sumUpTo_digits_lt w n d hd).trans_le (Nat.pow_le_pow_right (by decide) (by omega))
    rw [Nat.testBit_lt_two_pow hlt, decide_eq_false hj, Bool.false_and]

theorem testBit_lowBits (n x j : Nat) : (lowBits n x).testBit j = (decide (j < n) && x.testBit j) :=
  Nat.testBit_mod_two_pow x n j

/-- 42_codec_laws R142: the bits of a field from bit `k` on are the field without its low `k` bits. -/
theorem testBit_lowBits_sub_lowBits {k n : Nat} (h : k ≤ n) (x j : Nat) :
    (lowBits n x - lowBits k x).testBit j = (decide (k ≤ j ∧ j < n) && x.testBit j) := by
  obtain ⟨c, rfl⟩ := Nat.exists_eq_add_of_le h
  have hsub : lowBits (k + c) x - lowBits k x = 2 ^ k * (x / 2 ^ k % 2 ^ c) := by
    rw [lowBits, lowBits, Nat.pow_add, Nat.mod_mul, Nat.add_sub_cancel_left]
  rw [hsub, Nat.testBit_two_pow_mul, Nat.testBit_mod_two_pow, Nat.testBit_div_two_pow]
  by_cases hj : k ≤ j
  · rw [Nat.sub_add_cancel hj, ← Bool.and_assoc, ← Bool.decide_and]
    exact congrArg (· && _) (decide_eq_decide.mpr (by omega))
  · simp [hj]

/-- 42_codec_laws R136: a number that holds `w` in its field of `n` bits at `k`, and agrees with `y` elsewhere, is `y`
with its own field taken out and `w` put in. -/
theorem add_field_eq_add_of_testBit {x y w k n : Nat} (hw : w < 2 ^ n)
    (h : ∀ i, x.testBit i = if k ≤ i ∧ i < k + n then w.testBit (i - k) else y.testBit i) :
    x + y / 2 ^ k % 2 ^ n * 2 ^ k = y + w * 2 ^ k := by
  have hlow : x % 2 ^ k = y % 2 ^ k := Nat.eq_of_testBit_eq fun i => by
    rw [Nat.testBit_mod_two_pow, Nat.testBit_mod_two_pow, h]
    by_cases hi : i < k
    · rw [if_neg (by omega)]
    · simp [hi]
  have hfield : x / 2 ^ k % 2 ^ n = w := Nat.eq_of_testBit_eq fun i => by
    rw [Nat.testBit_mod_two_pow, Nat.testBit_div_two_pow, h, Nat.add_sub_cancel]
    by_cases hi : i < n
    · rw [if_pos (by omega), decide_eq_true hi, Bool.true_and]
    · rw [decide_eq_false hi, Bool.false_and,
        Nat.testBit_lt_two_pow (hw.trans_le (Nat.pow_le_pow_right (by decide) (by omega)))]
  have hhigh : x / 2 ^ k / 2 ^ n = y / 2 ^ k / 2 ^ n := Nat.eq_of_testBit_eq fun i => by
    simp only [Nat.testBit_div_two_pow, h]
    rw [if_neg (by omega)]
  have hsplit (z : Nat) : z = 2 ^ k * (2 ^ n * (z / 2 ^ k / 2 ^ n) + z / 2 ^ k % 2 ^ n) + z % 2 ^ k := by
    rw [Nat.div_add_mod, Nat.div_add_mod]
  calc x + y / 2 ^ k % 2 ^ n * 2 ^ k
      = 2 ^ k * (2 ^ n * (y / 2 ^ k / 2 ^ n) + w) + y % 2 ^ k + y / 2 ^ k % 2 ^ n * 2 ^ k := by
        rw [← hlow, ← hhigh, ← hfield, ← hsplit x]
    _ = 2 ^ k * (2 ^ n * (y / 2 ^ k / 2 ^ n) + y / 2 ^ k % 2 ^ n) + y % 2 ^ k + w * 2 ^ k := by ring
    _ = y + w * 2 ^ k := by rw [← hsplit y]

/-! ### The low digits of a number, in either order -/

/-- The low `n` digits of `w` bits of a number, in the order of an endianness: as they stand under LE, reversed under
BE. -/
def digitsInOrder (e : Endian) (w n x : Nat) : Nat :=
  sumUpTo n fun k => x / 2 ^ (w * select e n k) % 2 ^ w * 2 ^ (w * k)

theorem testBit_digitsInOrder (e : Endian) {w : Nat} (hw : 0 < w) (n x j : Nat) :
    (digitsInOrder e w n x).testBit j =
      (decide (j < w * n) && x.testBit (w * select e n (j / w) + j % w)) := by
  rw [digitsInOrder, testBit_sumUpTo_digits hw fun k _ => Nat.mod_lt _ (Nat.two_pow_pos w), Nat.testBit_mod_two_pow,
    Nat.testBit_div_two_pow, decide_eq_true (Nat.mod_lt j hw), Bool.true_and, Nat.add_comm]

theorem testBit_bitsInOrder (e : Endian) (n x j : Nat) :
    (digitsInOrder e 1 n x).testBit j = (decide (j < n) && x.testBit (select e n j)) := by
  simpa [Nat.mod_one] using testBit_digitsInOrder e Nat.one_pos n x j

theorem digitsInOrder_lt (e : Endian) (w n x : Nat) : digitsInOrder e w n x < 2 ^ (w * n) :=
  sumUpTo_digits_lt w n _ fun _ _ => Nat.mod_lt _ (Nat.two_pow_pos w)

/-- 42_codec_laws R127: in their own order the low digits are the number modulo the place after them. -/
theorem digitsInOrder_le (w n x : Nat) : digitsInOrder .le w n x = lowBits (w * n) x :=
  sumUpTo_of_digits w n x

/-- Only the low digits count. -/
theorem digitsInOrder_lowBits (e : Endian) {w : Nat} (hw : 0 < w) (n x : Nat) :
    digitsInOrder e w n (lowBits (w * n) x) = digitsInOrder e w n x := Nat.eq_of_testBit_eq fun j => by
  rw [testBit_digitsInOrder e hw, testBit_digitsInOrder e hw, testBit_lowBits]
  by_cases hj : j < w * n
  · have hdigit : select e n (j / w) + 1 ≤ n := select_lt (Nat.div_lt_of_lt_mul hj)
    have hplace : w * select e n (j / w) + j % w < w * n :=
      calc w * select e n (j / w) + j % w < w * select e n (j / w) + w := Nat.add_lt_add_left (Nat.mod_lt j hw) _
        _ ≤ w * n := Nat.mul_le_mul_left w hdigit
    rw [decide_eq_true hplace, Bool.true_and]
  · simp [hj]

/-- 42_codec_laws R132: `byterev_q` takes the bytes in the order of BE. -/
theorem revBytes_eq_digitsInOrder (q x : Nat) : revBytes q x = digitsInOrder .be 8 q x := by
  refine (sumUpTo_select .be q _).symm.trans (sumUpTo_congr fun k hk => ?_)
  change natByte x (select .be q k) * 2 ^ (8 * select .be q (select .be q k)) = _
  rw [select_select hk]
  rfl

/-- 42_codec_laws R140: `rev_n` takes the bits in the order of BE. -/
theorem revBits_eq_digitsInOrder (n x : Nat) : revBits n x = digitsInOrder .be 1 n x := by
  refine (sumUpTo_select .be n _).symm.trans (sumUpTo_congr fun k hk => ?_)
  change natBit x (select .be n k) * 2 ^ select .be n (select .be n k) = _
  rw [select_select hk, natBit, Nat.one_mul, Nat.one_mul, Nat.pow_one]

/-- 42_codec_laws R129: the bits of a number in their own order. -/
theorem bitsInOrder_le (n x : Nat) : digitsInOrder .le 1 n x = lowBits n x := by
  rw [digitsInOrder_le, Nat.one_mul]

/-- 42_codec_laws R132: `byterev_q` of the low `q` bytes. -/
theorem revBytes_lowBits (q x : Nat) : revBytes q (lowBits (8 * q) x) = digitsInOrder .be 8 q x := by
  rw [revBytes_eq_digitsInOrder, digitsInOrder_lowBits .be (by decide)]

/-- 42_codec_laws R140: `rev_n` of the low `n` bits. -/
theorem revBits_lowBits (n x : Nat) : revBits n (lowBits n x) = digitsInOrder .be 1 n x := by
  have htrunc := digitsInOrder_lowBits .be Nat.one_pos n x
  rwa [Nat.one_mul, ← revBits_eq_digitsInOrder] at htrunc

theorem testBit_revBits (n x j : Nat) : (revBits n x).testBit j = (decide (j < n) && x.testBit (n - 1 - j)) := by
  rw [revBits_eq_digitsInOrder, testBit_bitsInOrder]
  rfl

/-- 42_codec_laws R138: `brev8_q` reverses each bit's place inside its byte. -/
theorem testBit_revBitsInBytes (q x j : Nat) :
    (revBitsInBytes q x).testBit j = (decide (j < 8 * q) && x.testBit (8 * (j / 8) + (7 - j % 8))) := by
  have hbyte (k : Nat) (_ : k < q) : revBits 8 (natByte x k) < 2 ^ 8 :=
    revBits_eq_digitsInOrder 8 _ ▸ digitsInOrder_lt .be 1 8 _
  rw [revBitsInBytes, testBit_sumUpTo_digits (by decide) hbyte, testBit_revBits, natByte, Nat.testBit_mod_two_pow,
    Nat.testBit_div_two_pow, decide_eq_true (Nat.mod_lt j (by decide)), Bool.true_and,
    decide_eq_true (show 8 - 1 - j % 8 < 8 by omega), Bool.true_and, Nat.add_comm]

end Sys2Proof.Machine

/-! ## 42_codec_laws: a command followed by another

The orders of a field, the bits of a byte and of a decode's result, what an encode leaves in the buffer; then O19 and
O32 to O42 from these. -/

namespace Sys2Proof.Machine

/-! ### Orders -/

/-- The order of one endianness as the other sees it: LE when they are the same, BE when they differ. -/
def relativeOrder (e e' : Endian) : Endian :=
  if e = e' then .le else .be

/-- 42_codec_laws R132, R140: two selectors in a row select in the relative order. -/
theorem select_select_relative (e e' : Endian) {n i : Nat} (h : i < n) :
    select e n (select e' n i) = select (relativeOrder e e') n i :=
  match e, e' with
  | .le, .le | .le, .be | .be, .le => rfl
  | .be, .be => select_select h

theorem relativeOrder_self (e : Endian) : relativeOrder e e = .le :=
  if_pos rfl

/-- The order in which the weights of a byte's bits rise with their index (20_memory R35). -/
def bitOrder (bn : BitNum) : Endian :=
  match bn with
  | .lsb0 => .le
  | .msb0 => .be

theorem bitPlace_eq_select (bn : BitNum) (k : Nat) : bitPlace bn k = select (bitOrder bn) 8 k := by
  cases bn <;> rfl

/-- 42_codec_laws R137, R138: selecting a bit among `8q` is selecting its byte among `q` and its bit among 8. -/
theorem select_bits_of_bytes (e : Endian) {q k l : Nat} (hk : k < q) (hl : l < 8) :
    select e (8 * q) (8 * k + l) = 8 * select e q k + select e 8 l := by
  cases e with
  | le => rfl
  | be =>
    simp only [select]
    omega

/-! ### The bits of a byte and of a value -/

/-- 20_memory R32: a field starts at bit `bit_offset` of its byte. -/
theorem startBit_eq (off : Nat) (bit : Fin 8) : startBit off bit = 8 * off + bit.val :=
  congrArg (· + bit.val) (Nat.mul_comm off 8)

theorem startBit_zero (off : Nat) : startBit off 0 = 8 * off :=
  startBit_eq off 0

theorem getBit_read (bn : BitNum) (m : Memory) (a : Nat) {k : Nat} (hk : k < 8) :
    getBit bn (Memory.read m a) k = bufBit bn m (8 * a + k) := by
  have hbyte : byteIndex (8 * a + k) = a := by unfold byteIndex; omega
  have hbit : bitIndex (8 * a + k) = k := by unfold bitIndex; omega
  rw [bufBit, hbyte, hbit]

/-- The bit of weight 2^l of a byte has the index that the bit order gives it. -/
theorem getLsbD_read (bn : BitNum) (m : Memory) (a : Nat) {l : Nat} (hl : l < 8) :
    (Memory.read m a).getLsbD l = bufBit bn m (8 * a + select (bitOrder bn) 8 l) := by
  have hsel := select_lt (e := bitOrder bn) hl
  rw [← getBit_read bn m a hsel, getBit_eq_getLsbD _ _ hsel, bitPlace_eq_select, select_select hl]

theorem getLsbD_valueByte (v : Value) (k : Nat) {l : Nat} (hl : l < 8) :
    (valueByte v k).getLsbD l = v.getLsbD (8 * k + l) := by
  rw [valueByte, BitVec.getLsbD_extractLsb', decide_eq_true hl, Bool.true_and]

/-- A number of at most 64 bits is the value with its bits. -/
theorem value_eq_ofNat {r : Value} {x : Nat} (h : ∀ j, j < 64 → r.getLsbD j = x.testBit j) :
    r = BitVec.ofNat 64 x := by
  refine BitVec.eq_of_getLsbD_eq fun j hj => ?_
  rw [h j hj, BitVec.getLsbD_ofNat, decide_eq_true hj, Bool.true_and]

/-- A number without a bit from place `n` on is below 2^n. -/
theorem toNat_lt_of_getLsbD {r : Value} {n : Nat} (h : ∀ j, n ≤ j → r.getLsbD j = false) : r.toNat < 2 ^ n :=
  Nat.lt_pow_two_of_testBit _ h

/-! ### The results of the decodes -/

/-- The value that DECA delivers (40_aligned R85). -/
def decaResult (e : Endian) (size off n : Nat) (s : State) : Value :=
  BitVec.ofNat 64 (decaBytes e size off n s).1

/-- The value that DECB delivers (41_bit_codec R108). -/
def decbResult (e : Endian) (size off : Nat) (bit : Fin 8) (n : Nat) (s : State) : Value :=
  BitVec.ofNat 64 (decbBits e size (startBit off bit) n s).1

theorem completion_deca_result (e : Endian) (size off n : Nat) (s : State) :
    (completion (.deca e size off n) s).rsp.bind (·.result) = some (decaResult e size off n s) := rfl

theorem completion_decb_result (e : Endian) (size off : Nat) (bit : Fin 8) (n : Nat) (s : State) :
    (completion (.decb e size off bit n) s).rsp.bind (·.result) = some (decbResult e size off bit n s) := rfl

/-- 40_aligned R85: bit `l` of byte `k` of DECA's result, when the span test passes. -/
theorem getLsbD_decaResult (e : Endian) {size off n : Nat} (s : State) (h : off + n ≤ size ∧ n ≤ 8) {k l : Nat}
    (hk : k < n) (hl : l < 8) :
    (decaResult e size off n s).getLsbD (8 * k + l) = (Memory.read s.buf (off + select e n k)).getLsbD l := by
  rw [← (decaBytes_result e s h).1 _ (select_lt hk), select_select hk, getLsbD_valueByte _ _ hl]
  rfl

/-- 40_aligned R85: the bits of DECA's result beyond its bytes. -/
theorem getLsbD_decaResult_above (e : Endian) {size off n : Nat} (s : State) (h : off + n ≤ size ∧ n ≤ 8) {j : Nat}
    (hj : 8 * n ≤ j) : (decaResult e size off n s).getLsbD j = false :=
  (decaBytes_result e s h).2 j hj

/-- 41_bit_codec R108, R109: the bits of DECB's result, those beyond the `m` in-range bits being 0. -/
theorem getLsbD_decbResult (e : Endian) (size off : Nat) (bit : Fin 8) {n : Nat} (s : State) (hn : n ≤ 64) (j : Nat) :
    (decbResult e size off bit n s).getLsbD j =
      (decide (j < n ∧ select e n j < inRangeBits size (startBit off bit) n) &&
        bufBit s.cfg.bitNum s.buf (startBit off bit + select e n j)) := by
  obtain ⟨hbits, habove⟩ := decbBits_result e size (startBit off bit) s hn
  by_cases hj : j < n
  · have hbit := hbits (select e n j) (select_lt hj)
    rw [select_select hj] at hbit
    simp only [hj, true_and, ← byteIndex_lt_iff (select_lt hj)]
    exact hbit
  · simp only [hj, false_and, decide_false, Bool.false_and]
    exact habove j (Nat.le_of_not_lt hj)

/-- 41_bit_codec R102: a field inside the buffer is in range as a whole. -/
theorem inRangeBits_of_le {size start n : Nat} (h : start + n ≤ 8 * size) : inRangeBits size start n = n := by
  unfold inRangeBits
  omega

theorem lt_and_select_lt_inRangeBits (e : Endian) {size start n j : Nat} (h : start + n ≤ 8 * size) :
    (j < n ∧ select e n j < inRangeBits size start n) ↔ j < n := by
  rw [inRangeBits_of_le h]
  exact ⟨And.left, fun hj => ⟨hj, select_lt hj⟩⟩

/-- 41_bit_codec R108: the bits of DECB's result over a field inside the buffer. -/
theorem getLsbD_decbResult_inside (e : Endian) {size off : Nat} {bit : Fin 8} {n : Nat} (s : State) (hn : n ≤ 64)
    (hin : startBit off bit + n ≤ 8 * size) (j : Nat) :
    (decbResult e size off bit n s).getLsbD j =
      (decide (j < n) && bufBit s.cfg.bitNum s.buf (startBit off bit + select e n j)) := by
  simp only [getLsbD_decbResult e size off bit s hn, lt_and_select_lt_inRangeBits e hin]

/-- 40_aligned R86, R87: a command that fails the span test, or has a count of 0, has no turn. -/
theorem activeTurns_deca_eq_zero (e : Endian) {size off n : Nat} (h : size < off + n ∨ 8 < n ∨ n = 0) :
    activeTurns (.deca e size off n) = 0 := by
  simp only [activeTurns, spanFail, Bool.or_eq_true, decide_eq_true_eq]
  split <;> omega

/-- 41_bit_codec R101, R102, R111: a command whose field is too wide, starts past the buffer or is empty has no turn
that makes an access. -/
theorem activeTurns_decb_eq_zero (e : Endian) {size off : Nat} {bit : Fin 8} {n : Nat}
    (h : 8 * size ≤ startBit off bit ∨ 64 < n ∨ n = 0) : activeTurns (.decb e size off bit n) = 0 := by
  simp only [activeTurns, widthFail, decide_eq_true_eq, inRangeBits]
  split <;> omega

theorem decaResult_eq_zero (e : Endian) {size off n : Nat} (s : State) (h : size < off + n ∨ 8 < n ∨ n = 0) :
    decaResult e size off n s = 0 := by
  rw [decaResult, decaBytes_eq_ascend, activeTurns_deca_eq_zero e h]
  rfl

theorem decbResult_eq_zero (e : Endian) {size off : Nat} {bit : Fin 8} {n : Nat} (s : State)
    (h : 8 * size ≤ startBit off bit ∨ 64 < n ∨ n = 0) : decbResult e size off bit n s = 0 := by
  rw [decbResult, decbBits_eq_ascend, activeTurns_decb_eq_zero e h]
  rfl

/-! ### What an encode leaves in the buffer -/

/-- 40_aligned R82: bit `l` of byte `i` of the span once ENCA has completed. -/
theorem getLsbD_enca_span (e : Endian) {size off n : Nat} (v : Value) (s : State) (h : off + n ≤ size ∧ n ≤ 8)
    {i l : Nat} (hi : i < n) (hl : l < 8) :
    (Memory.read (completion (.enca e size off v n) s).buf (off + i)).getLsbD l =
      v.getLsbD (8 * select e n i + l) := by
  rw [completion_enca_read, if_pos ⟨h.1, h.2, by omega, by omega⟩, Nat.add_sub_cancel_left, getLsbD_valueByte v _ hl]

/-- 41_bit_codec R104, R105: the buffer bit at an in-range position of the field once ENCB has completed. -/
theorem bufBit_encb_field (e : Endian) {size off : Nat} {bit : Fin 8} (v : Value) {n : Nat} (s : State) (hn : n ≤ 64)
    {i : Nat} (hi : i < inRangeBits size (startBit off bit) n) :
    bufBit s.cfg.bitNum (completion (.encb e size off bit v n) s).buf (startBit off bit + i) =
      v.getLsbD (select e n i) := by
  have hin : i < n := hi.trans_le (inRangeBits_le size _ n)
  rw [completion_encb_bufBit, if_pos ⟨hn, by omega, by omega, (byteIndex_lt_iff hin).mpr hi⟩, Nat.add_sub_cancel_left]
  rfl

/-- 42_codec_laws R133: ENCB leaves every bit outside its field. -/
theorem bufBit_encb_outside (e : Endian) (size : Nat) {off : Nat} {bit : Fin 8} (v : Value) {n : Nat} (s : State)
    {pos : Nat} (h : pos < startBit off bit ∨ startBit off bit + n ≤ pos) :
    bufBit s.cfg.bitNum (completion (.encb e size off bit v n) s).buf pos = bufBit s.cfg.bitNum s.buf pos := by
  rw [completion_encb_bufBit, if_neg (by omega)]

/-! ### A decode after an encode -/

/-- 42_codec_laws R131, R132: DECA after ENCA gives the value's low bytes, in the order in which the two see each
other. -/
theorem decaResult_enca (e e' : Endian) {size off n : Nat} (v : Value) (s : State) (h : off + n ≤ size ∧ n ≤ 8) :
    decaResult e' size off n (completion (.enca e size off v n) s) =
      BitVec.ofNat 64 (digitsInOrder (relativeOrder e e') 8 n v.toNat) := value_eq_ofNat fun j _ => by
  rw [testBit_digitsInOrder _ (by decide)]
  by_cases hj : j < 8 * n
  · have hk : j / 8 < n := Nat.div_lt_of_lt_mul hj
    have hl : j % 8 < 8 := Nat.mod_lt j (by decide)
    have hbit := getLsbD_decaResult e' (completion (.enca e size off v n) s) h hk hl
    rw [Nat.div_add_mod, getLsbD_enca_span e v s h (select_lt hk) hl, select_select_relative e e' hk] at hbit
    rw [hbit, decide_eq_true hj, Bool.true_and, BitVec.testBit_toNat]
  · rw [getLsbD_decaResult_above e' _ h (Nat.le_of_not_lt hj), decide_eq_false hj, Bool.false_and]

/-- 42_codec_laws R142: the bits of DECB's result after ENCB, of which only the in-range ones have been kept. -/
theorem getLsbD_decbResult_encb (e e' : Endian) (size off : Nat) (bit : Fin 8) (v : Value) {n : Nat} (s : State)
    (hn : n ≤ 64) (j : Nat) :
    (decbResult e' size off bit n (completion (.encb e size off bit v n) s)).getLsbD j =
      (decide (j < n ∧ select e' n j < inRangeBits size (startBit off bit) n) &&
        v.getLsbD (select (relativeOrder e e') n j)) := by
  rw [getLsbD_decbResult e' size off bit _ hn, completion_cfg]
  by_cases hj : j < n ∧ select e' n j < inRangeBits size (startBit off bit) n
  · rw [bufBit_encb_field e v s hn hj.2, select_select_relative e e' hj.1]
  · simp only [hj, decide_false, Bool.false_and]

/-- 42_codec_laws R130, R140: over a field inside the buffer, DECB after ENCB gives the value's low bits, in the order
in which the two see each other. -/
theorem decbResult_encb (e e' : Endian) {size off : Nat} {bit : Fin 8} (v : Value) {n : Nat} (s : State) (hn : n ≤ 64)
    (hin : startBit off bit + n ≤ 8 * size) :
    decbResult e' size off bit n (completion (.encb e size off bit v n) s) =
      BitVec.ofNat 64 (digitsInOrder (relativeOrder e e') 1 n v.toNat) := value_eq_ofNat fun j _ => by
  simp only [getLsbD_decbResult_encb e e' size off bit v s hn, lt_and_select_lt_inRangeBits e' hin,
    testBit_bitsInOrder, BitVec.testBit_toNat]

/-- A command that is admitted is admitted again after another. -/
theorem exec_after_completion {i i' : Instr} {s : State} (h : i'.bufferSize ≤ s.cfg.memLen) :
    exec i' (completion i s) = .next (completion i' (completion i s)) :=
  exec_of_bufferSize_le (by rwa [completion_cfg])

/-! ### Byte and bit isolation, no-ops and truncation -/

/-- 42_codec_laws R133: ENCB leaves every byte that its field does not reach. -/
theorem read_encb_outside (e : Endian) (size : Nat) {off : Nat} {bit : Fin 8} (v : Value) {n : Nat} (s : State)
    {a : Nat} (h : 8 * a + 8 ≤ startBit off bit ∨ startBit off bit + n ≤ 8 * a) :
    Memory.read (completion (.encb e size off bit v n) s).buf a = Memory.read s.buf a :=
  read_eq_of_bufBit fun k _ => bufBit_encb_outside e size v s (by omega)

/-- Settles O19: ENCA writes its span only, and nothing on a failed test; ENCB writes the bits of its field only, and
spares every byte outside its footprint. -/
theorem encodesKeepEverythingOutsideTheField : Obligations.EncodesKeepEverythingOutsideTheField := by
  refine ⟨fun e size off v n s hsize => ⟨_, exec_of_bufferSize_le hsize, fun a ha => ?_⟩,
    fun e size off bit v n s hsize => ⟨_, exec_of_bufferSize_le hsize,
      fun pos hpos => bufBit_encb_outside e size v s hpos, fun a ha => completion_spares (.inr ha) s⟩⟩
  rw [completion_enca_read, if_neg (by omega)]

/-- Settles O40: the field's byte is the only one that the field reaches, and its other bits are outside the field. -/
theorem partialBytePreservation : Obligations.PartialBytePreservation := by
  refine ⟨fun e size off bit v n s hsize hbit => ?_, fun e size off v s hsize hlsb0 => ?_⟩
  · refine ⟨_, exec_of_bufferSize_le hsize, fun a ha => ?_, fun k hk hout => ?_⟩
    · exact read_encb_outside e size v s (by rw [startBit_eq]; omega)
    · rw [getBit_read _ _ _ hk, getBit_read _ _ _ hk]
      exact bufBit_encb_outside e size v s (by rw [startBit_eq]; omega)
  · have hstart : startBit off 3 = 8 * off + 3 := startBit_eq off 3
    refine ⟨_, exec_of_bufferSize_le hsize, fun a ha => read_encb_outside e size v s (by omega),
      BitVec.eq_of_getLsbD_eq fun l hl => ?_⟩
    rw [BitVec.getLsbD_and, BitVec.getLsbD_and]
    by_cases hfield : l = 3 ∨ l = 4
    · have hmask : (0xE7#8).getLsbD l = false := by rcases hfield with rfl | rfl <;> rfl
      rw [hmask, Bool.and_false, Bool.and_false]
    · have hout : 8 * off + select (bitOrder s.cfg.bitNum) 8 l < startBit off 3 ∨
          startBit off 3 + 2 ≤ 8 * off + select (bitOrder s.cfg.bitNum) 8 l := by
        rw [hlsb0, bitOrder, select]
        omega
      rw [getLsbD_read s.cfg.bitNum _ _ hl, getLsbD_read s.cfg.bitNum _ _ hl, bufBit_encb_outside e size v s hout]

/-- A value all of whose bits are the same. -/
theorem exists_value_forall_getLsbD (x : Bool) : ∃ v : Value, ∀ j, j < 64 → v.getLsbD j = x :=
  match x with
  | false => ⟨0#64, fun _ _ => BitVec.getLsbD_zero⟩
  | true => ⟨BitVec.allOnes 64, fun _ hj => BitVec.getLsbD_allOnes.trans (decide_eq_true hj)⟩

/-- Settles O32: out of bounds no turn of the loop makes an access; of a field that starts inside the buffer the first
bit is written, and a value of the opposite bits changes it. -/
theorem boundsNoOp : Obligations.BoundsNoOp := by
  refine ⟨fun e size off v n s hsize hfail => ?_, fun e size off bit v n s hsize hfail => ?_,
    fun e size off bit n s hsize hn hstart hend => ?_⟩
  · have hturns : activeTurns (.enca e size off v n) = 0 := activeTurns_deca_eq_zero e (.inl hfail)
    obtain ⟨hbuf, -, -⟩ := completion_of_no_turns hturns s
    exact ⟨⟨_, exec_of_bufferSize_le hsize, hbuf⟩, _, exec_of_bufferSize_le hsize,
      congrArg some (decaResult_eq_zero e s (.inl hfail))⟩
  · have hfail' : 8 * size ≤ startBit off bit ∨ 64 < n ∨ n = 0 := hfail.imp_right .inl
    have hturns : activeTurns (.encb e size off bit v n) = 0 := activeTurns_decb_eq_zero e hfail'
    obtain ⟨hbuf, -, -⟩ := completion_of_no_turns hturns s
    exact ⟨⟨_, exec_of_bufferSize_le hsize, hbuf⟩, _, exec_of_bufferSize_le hsize,
      congrArg some (decbResult_eq_zero e s hfail')⟩
  · obtain ⟨v, hv⟩ := exists_value_forall_getLsbD (!bufBit s.cfg.bitNum s.buf (startBit off bit))
    have hfirst : 0 < inRangeBits size (startBit off bit) n := by unfold inRangeBits; omega
    have hwritten := bufBit_encb_field e v s hn hfirst
    rw [Nat.add_zero, hv _ ((select_lt (by omega)).trans_le hn)] at hwritten
    refine ⟨v, _, exec_of_bufferSize_le hsize, ?_⟩
    rw [hwritten]
    exact Bool.not_ne_self _

/-- ENCA is the same command with another order and another value that give each byte of the span the same byte. -/
theorem encaBytes_congr {e e' : Endian} {v v' : Value} {n : Nat}
    (h : ∀ i, i < n → valueByte v (select e n i) = valueByte v' (select e' n i)) (size off : Nat) (s : State) :
    encaBytes e size off v n s = encaBytes e' size off v' n s := by
  have hturn (i : Nat) (t : State) (hi : i < n) : encaByte e off v n i t = encaByte e' off v' n i t := by
    simp only [encaByte, h i hi]
  rw [encaBytes, encaBytes, ascend_congr s hturn]

/-- DECA is the same command with another order that selects the same places. -/
theorem decaBytes_congr {e e' : Endian} {n : Nat} (h : ∀ i, i < n → select e n i = select e' n i) (size off : Nat)
    (s : State) : decaBytes e size off n s = decaBytes e' size off n s := by
  have hturn (i : Nat) (x : Nat × State) (hi : i < n) : decaByte e off n i x = decaByte e' off n i x := by
    simp only [decaByte, h i hi]
  rw [decaBytes, decaBytes, ascend_congr (0, s) hturn]

/-- ENCB is the same command with another value that has the same bits in the field's width. -/
theorem encbBits_congr {v v' : Value} {n : Nat} (h : ∀ j, j < n → valueBit v j = valueBit v' j) (e : Endian)
    (size start : Nat) (s : State) : encbBits e size start v n s = encbBits e size start v' n s := by
  have hturn (i : Nat) (t : State) (hi : i < n) : encbBit e size start v n i t = encbBit e size start v' n i t := by
    simp only [encbBit, h _ (select_lt hi)]
  rw [encbBits, encbBits, ascend_congr s hturn]

/-- 42_codec_laws R127: the low `n` bits of a value are those of its remainder. -/
theorem getLsbD_lowBits (v : Value) {n j : Nat} (h : j < n) :
    (BitVec.ofNat 64 (lowBits n v.toNat)).getLsbD j = v.getLsbD j := by
  rw [BitVec.getLsbD_ofNat, testBit_lowBits, decide_eq_true h, Bool.true_and, BitVec.testBit_toNat]
  by_cases hj : j < 64
  · rw [decide_eq_true hj, Bool.true_and]
  · rw [decide_eq_false hj, Bool.false_and, BitVec.getLsbD_of_ge v j (by omega)]

/-- Settles O33: the bytes, and the bits, that an encode writes are those of the truncated value. -/
theorem encodeTruncates : Obligations.EncodeTruncates := by
  refine ⟨fun e size off v n s => ?_, fun e size off bit v n s => ?_⟩
  · have hbytes : ∀ i, i < n → valueByte v (select e n i) =
        valueByte (BitVec.ofNat 64 (lowBits (8 * n) v.toNat)) (select e n i) := fun i hi => by
      have hsel := select_lt (e := e) hi
      refine BitVec.eq_of_getLsbD_eq fun l hl => ?_
      rw [getLsbD_valueByte _ _ hl, getLsbD_valueByte _ _ hl, getLsbD_lowBits v (by omega)]
    rw [exec_eq_requireBuffer, exec_eq_requireBuffer, completion, encaBytes_congr hbytes]
    rfl
  · rw [exec_eq_requireBuffer, exec_eq_requireBuffer, completion,
      encbBits_congr fun j hj => (getLsbD_lowBits v hj).symm]
    rfl

/-- Settles O34: no bit of a result lies beyond its field, and a command that makes no access delivers 0. -/
theorem resultsAreBounded : Obligations.ResultsAreBounded := by
  refine ⟨fun e size off n s hsize => ⟨_, _, exec_of_bufferSize_le hsize, completion_deca_result e size off n s, ?_,
      decaResult_eq_zero e s⟩,
    fun e size off bit n s hsize => ⟨_, _, exec_of_bufferSize_le hsize, completion_decb_result e size off bit n s, ?_,
      fun h => decbResult_eq_zero e s (.inr h)⟩⟩
  · by_cases hspan : off + n ≤ size ∧ n ≤ 8
    · exact toNat_lt_of_getLsbD fun j hj => getLsbD_decaResult_above e s hspan hj
    · rw [decaResult_eq_zero e s (by omega)]
      exact Nat.two_pow_pos _
  · by_cases hn : n ≤ 64
    · exact toNat_lt_of_getLsbD (decbBits_result e size (startBit off bit) s hn).2
    · rw [decbResult_eq_zero e s (.inr (.inl (Nat.lt_of_not_le hn)))]
      exact Nat.two_pow_pos _

/-! ### Round trips -/

/-- Settles O35: encoding and decoding in one order leaves the low bits of the value in their own order. -/
theorem roundTripOnTheBitPath : Obligations.RoundTripOnTheBitPath := by
  intro e size off bit v n s hsize hn hin
  refine ⟨_, _, exec_of_bufferSize_le hsize, exec_after_completion hsize, ?_⟩
  rw [completion_decb_result, decbResult_encb e e v s hn hin, relativeOrder_self, bitsInOrder_le]

/-- Settles O36: what the round trip returns is the masked value, which is the value itself at 64 bits. -/
theorem maskIsTakenOverTheNaturals : Obligations.MaskIsTakenOverTheNaturals := by
  intro e size off bit v n s hsize hn hin
  obtain ⟨t, u, ht, hu, hr⟩ := roundTripOnTheBitPath e size off bit v n s hsize hn hin
  refine ⟨t, u, _, ht, hu, hr, ?_, and_fieldMask v.toNat n, ?_⟩
  · rw [and_fieldMask, BitVec.toNat_ofNat]
    exact Nat.mod_eq_of_lt ((Nat.mod_le _ _).trans_lt v.isLt)
  · rintro rfl
    rw [lowBits_value, BitVec.ofNat_toNat, BitVec.setWidth_eq]

/-- Settles O37: encoding and decoding in one order leaves the low bytes of the value in their own order. -/
theorem roundTripOnTheAlignedPath : Obligations.RoundTripOnTheAlignedPath := by
  intro e size off v n s hsize hn hspan
  refine ⟨_, _, exec_of_bufferSize_le hsize, exec_after_completion hsize, ?_⟩
  rw [completion_deca_result, decaResult_enca e e v s ⟨hspan, hn⟩, relativeOrder_self, digitsInOrder_le]

/-- Settles O38: the two orders see each other as BE, which reverses the bytes; of one byte they select the same. -/
theorem endiannessSymmetryOnTheAlignedPath : Obligations.EndiannessSymmetryOnTheAlignedPath := by
  refine ⟨fun size off v n s hsize hn hspan => ?_, fun size off v s => ?_⟩
  · rw [revBytes_lowBits]
    exact ⟨⟨_, _, exec_of_bufferSize_le hsize, exec_after_completion hsize,
        congrArg some (decaResult_enca .le .be v s ⟨hspan, hn⟩)⟩,
      _, _, exec_of_bufferSize_le hsize, exec_after_completion hsize,
        congrArg some (decaResult_enca .be .le v s ⟨hspan, hn⟩)⟩
  · have hsel : ∀ i, i < 1 → select .le 1 i = select .be 1 i := by decide
    refine ⟨?_, ?_⟩
    · rw [exec_eq_requireBuffer, exec_eq_requireBuffer, completion,
        encaBytes_congr (fun i hi => congrArg (valueByte v) (hsel i hi)) size off s]
      rfl
    · rw [exec_eq_requireBuffer, exec_eq_requireBuffer, completion, decaBytes_congr hsel size off s]
      rfl

/-- Settles O39: the two orders see each other as BE, which reverses the bits. -/
theorem endiannessSwapOnTheBitPath : Obligations.EndiannessSwapOnTheBitPath := by
  intro size off bit v n s hsize hn hin
  rw [revBits_lowBits]
  exact ⟨⟨_, _, exec_of_bufferSize_le hsize, exec_after_completion hsize,
      congrArg some (decbResult_encb .le .be v s hn hin)⟩,
    _, _, exec_of_bufferSize_le hsize, exec_after_completion hsize,
      congrArg some (decbResult_encb .be .le v s hn hin)⟩

/-- Settles O42: the bits that come back are the in-range ones, under LE the low `m` of the field and under BE its
high `m`. -/
theorem roundTripUnderOverrun : Obligations.RoundTripUnderOverrun := by
  rintro size off bit v n s hsize hn _ rfl
  have hm := inRangeBits_le size (startBit off bit) n
  refine ⟨⟨_, _, exec_of_bufferSize_le hsize, exec_after_completion hsize,
      congrArg some (value_eq_ofNat fun j _ => ?_)⟩,
    _, _, exec_of_bufferSize_le hsize, exec_after_completion hsize, congrArg some (value_eq_ofNat fun j _ => ?_)⟩
  · refine (getLsbD_decbResult_encb .le .le size off bit v s hn j).trans ?_
    rw [testBit_lowBits, BitVec.testBit_toNat]
    refine congrArg (· && _) (decide_eq_decide.mpr ?_)
    change j < n ∧ j < inRangeBits size (startBit off bit) n ↔ j < inRangeBits size (startBit off bit) n
    omega
  · refine (getLsbD_decbResult_encb .be .be size off bit v s hn j).trans ?_
    rw [testBit_lowBits_sub_lowBits (Nat.sub_le n _), BitVec.testBit_toNat]
    refine congrArg (· && _) (decide_eq_decide.mpr ?_)
    change j < n ∧ n - 1 - j < inRangeBits size (startBit off bit) n ↔
      n - inRangeBits size (startBit off bit) n ≤ j ∧ j < n
    omega

/-! ### Purity and idempotence -/

/-- 42_codec_laws R141: what a decode delivers depends on the buffer and the parameters only. -/
theorem completion_rsp_congr {i : Instr} (h : isEncode i = false) {s t : State} (hbuf : t.buf = s.buf)
    (hcfg : t.cfg = s.cfg) : (completion i t).rsp = (completion i s).rsp := by
  cases i with
  | enca | encb => cases h
  | deca e size off n =>
    have hr := decaBytes_result_congr e size off n (s := s) (s' := t) fun a _ _ => by rw [hbuf]
    simp only [completion, State.completeDecode_rsp, hr]
  | decb e size off bit n =>
    have hr := decbBits_result_congr e size (startBit off bit) n hcfg fun pos _ _ => by rw [hbuf]
    simp only [completion, State.completeDecode_rsp, hr]

/-- Two memories with the same bits at every position have the same bytes. -/
theorem read_eq_of_forall_bufBit {bn : BitNum} {m m' : Memory} (h : ∀ pos, bufBit bn m pos = bufBit bn m' pos)
    (a : Nat) : Memory.read m a = Memory.read m' a :=
  read_eq_of_bufBit fun _ _ => h _

/-- 42_codec_laws R141: an encode executed twice leaves the buffer as once. -/
theorem read_completion_twice {i : Instr} (h : isEncode i = true) (s : State) (a : Nat) :
    Memory.read (completion i (completion i s)).buf a = Memory.read (completion i s).buf a := by
  cases i with
  | deca | decb => cases h
  | enca e size off v n =>
    simp only [completion_enca_read]
    split <;> rfl
  | encb e size off bit v n =>
    refine read_eq_of_forall_bufBit (bn := s.cfg.bitNum) (fun pos => ?_) a
    have htwice := completion_encb_bufBit e size off bit v n (completion (.encb e size off bit v n) s) pos
    rw [completion_cfg, completion_encb_bufBit] at htwice
    rw [htwice, completion_encb_bufBit]
    split <;> rfl

/-- 42_codec_laws R141: ENCA of what DECA returns writes the bytes that are there. -/
theorem read_enca_decaResult (e : Endian) (size off n : Nat) {s t : State} (hbuf : t.buf = s.buf) (a : Nat) :
    Memory.read (completion (.enca e size off (decaResult e size off n s) n) t).buf a = Memory.read s.buf a := by
  rw [completion_enca_read, hbuf]
  split
  next h =>
    obtain ⟨hspan, hn, hfirst, hlast⟩ := h
    refine ((decaBytes_result e s ⟨hspan, hn⟩).1 (a - off) (by omega)).trans ?_
    rw [Nat.add_sub_cancel' hfirst]
  next => rfl

/-- 42_codec_laws R141: ENCB of what DECB returns writes the in-range bits that are there. -/
theorem read_encb_decbResult (e : Endian) (size off : Nat) (bit : Fin 8) (n : Nat) {s t : State}
    (hbuf : t.buf = s.buf) (hcfg : t.cfg = s.cfg) (a : Nat) :
    Memory.read (completion (.encb e size off bit (decbResult e size off bit n s) n) t).buf a =
      Memory.read s.buf a := by
  refine read_eq_of_forall_bufBit (bn := t.cfg.bitNum) (fun pos => ?_) a
  rw [completion_encb_bufBit, hbuf]
  split
  next h =>
    obtain ⟨hn, hfirst, hlast, hbyte⟩ := h
    obtain ⟨i, rfl⟩ := Nat.exists_eq_add_of_le hfirst
    rw [Nat.add_sub_cancel_left]
    refine ((decbBits_result e size (startBit off bit) s hn).1 i (by omega)).trans ?_
    rw [decide_eq_true hbyte, Bool.true_and, hcfg]
  next => rfl

/-- Settles O41: a decode reads what it leaves, an encode writes what it has written, and each encode writes back what
its decode has read. -/
theorem purityAndIdempotence : Obligations.PurityAndIdempotence := by
  refine ⟨fun i s hsize hdec => ?_, fun i s hsize henc => ?_, fun e size off n s hsize => ?_,
    fun e size off bit n s hsize => ?_⟩
  · have hbuf := completion_buf_of_decode hdec s
    exact ⟨_, _, exec_of_bufferSize_le hsize, exec_after_completion hsize, hbuf,
      completion_rsp_congr hdec hbuf (completion_cfg i s)⟩
  · exact ⟨_, _, exec_of_bufferSize_le hsize, exec_after_completion hsize, read_completion_twice henc s⟩
  · exact ⟨_, _, _, exec_of_bufferSize_le hsize, completion_deca_result e size off n s, exec_after_completion hsize,
      read_enca_decaResult e size off n (completion_buf_of_decode rfl s)⟩
  · exact ⟨_, _, _, exec_of_bufferSize_le hsize, completion_decb_result e size off bit n s,
      exec_after_completion hsize,
      read_encb_decbResult e size off bit n (completion_buf_of_decode rfl s) (completion_cfg _ s)⟩

end Sys2Proof.Machine

/-! ## 42_codec_laws: the buffer as one integer, and the two paths at byte boundaries

The closed forms of the bit path, and what it has in common with the aligned path; then O43 to O46 from these. -/

namespace Sys2Proof.Machine

/-! ### The buffer as one integer -/

/-- The integer that suits a bit numbering (42_codec_laws R136): `L(BUF, S)` under LSB0, `M(BUF, S)` under MSB0. -/
def bufInt (bn : BitNum) (m : Memory) (size : Nat) : Nat :=
  match bn with
  | .lsb0 => leInt m size
  | .msb0 => beInt m size

/-- The place in that integer of a field of `n` bits that starts at the bit `start` of the buffer. -/
def fieldPlace (bn : BitNum) (size start n : Nat) : Nat :=
  match bn with
  | .lsb0 => start
  | .msb0 => 8 * size - start - n

/-- The integer is the bytes in the bit order of the numbering. -/
theorem bufInt_eq_sumUpTo (bn : BitNum) (m : Memory) (size : Nat) :
    bufInt bn m size = sumUpTo size fun a => (Memory.read m (select (bitOrder bn) size a)).toNat * 2 ^ (8 * a) := by
  cases bn with
  | lsb0 => rfl
  | msb0 =>
    refine (sumUpTo_select .be size _).symm.trans (sumUpTo_congr fun a ha => ?_)
    change (Memory.read m (select .be size a)).toNat * 2 ^ (8 * select .be size (select .be size a)) = _
    rw [select_select ha]
    rfl

/-- 20_memory R35: the bits of the integer are the bits of the buffer in the bit order of the numbering. -/
theorem testBit_bufInt (bn : BitNum) (m : Memory) (size p : Nat) :
    (bufInt bn m size).testBit p = (decide (p < 8 * size) && bufBit bn m (select (bitOrder bn) (8 * size) p)) := by
  rw [bufInt_eq_sumUpTo, testBit_sumUpTo_digits (by decide) fun _ _ => (Memory.read m _).isLt]
  by_cases hp : p < 8 * size
  · have hl : p % 8 < 8 := Nat.mod_lt p (by decide)
    rw [BitVec.testBit_toNat, getLsbD_read bn _ _ hl, ← select_bits_of_bytes _ (Nat.div_lt_of_lt_mul hp) hl,
      Nat.div_add_mod]
  · simp only [hp, decide_false, Bool.false_and]

/-- The field's bits stand in the integer from the field's place on, in the bit order of the numbering. -/
theorem select_fieldPlace_add (bn : BitNum) {size start n i : Nat} (hin : start + n ≤ 8 * size) (hi : i < n) :
    fieldPlace bn size start n + i < 8 * size ∧
      select (bitOrder bn) (8 * size) (fieldPlace bn size start n + i) = start + select (bitOrder bn) n i := by
  cases bn <;> (simp only [fieldPlace, bitOrder, select, and_true]; omega)

/-- The integer's other bits are those of the buffer outside the field. -/
theorem select_outside_fieldPlace (bn : BitNum) {size start n p : Nat} (hin : start + n ≤ 8 * size)
    (hp : p < 8 * size) (hout : ¬(fieldPlace bn size start n ≤ p ∧ p < fieldPlace bn size start n + n)) :
    select (bitOrder bn) (8 * size) p < start ∨ start + n ≤ select (bitOrder bn) (8 * size) p := by
  cases bn <;> (simp only [fieldPlace, bitOrder, select] at hout ⊢; omega)

/-- 42_codec_laws R136: DECB extracts the field from the integer, in the order in which the numbering sees the
command's. -/
theorem decbResult_eq_extract {bn : BitNum} (e : Endian) {size off : Nat} {bit : Fin 8} {n : Nat} {s : State}
    (hbn : s.cfg.bitNum = bn) (hn : n ≤ 64) (hin : startBit off bit + n ≤ 8 * size) :
    decbResult e size off bit n s =
      BitVec.ofNat 64 (digitsInOrder (relativeOrder (bitOrder bn) e) 1 n
        (bufInt bn s.buf size / 2 ^ fieldPlace bn size (startBit off bit) n)) := value_eq_ofNat fun j _ => by
  rw [getLsbD_decbResult_inside e s hn hin, hbn, testBit_bitsInOrder]
  by_cases hj : j < n
  · obtain ⟨hlt, hsel⟩ := select_fieldPlace_add bn hin (select_lt (e := relativeOrder (bitOrder bn) e) hj)
    rw [Nat.testBit_div_two_pow, Nat.add_comm _ (fieldPlace ..), testBit_bufInt, decide_eq_true hlt, Bool.true_and,
      hsel, ← select_select_relative _ e hj, select_select (select_lt hj)]
  · simp only [hj, decide_false, Bool.false_and]

/-- 42_codec_laws R136: ENCB inserts the value's low bits in the place of the field, in the order in which it sees the
numbering. -/
theorem bufInt_encb_add {bn : BitNum} (e : Endian) {size off : Nat} {bit : Fin 8} (v : Value) {n : Nat} {s : State}
    (hbn : s.cfg.bitNum = bn) (hn : n ≤ 64) (hin : startBit off bit + n ≤ 8 * size) :
    bufInt bn (completion (.encb e size off bit v n) s).buf size +
        digitsInOrder .le 1 n (bufInt bn s.buf size / 2 ^ fieldPlace bn size (startBit off bit) n) *
          2 ^ fieldPlace bn size (startBit off bit) n =
      bufInt bn s.buf size +
        digitsInOrder (relativeOrder e (bitOrder bn)) 1 n v.toNat * 2 ^ fieldPlace bn size (startBit off bit) n := by
  have hwidth := digitsInOrder_lt (relativeOrder e (bitOrder bn)) 1 n v.toNat
  rw [Nat.one_mul] at hwidth
  rw [bitsInOrder_le]
  refine add_field_eq_add_of_testBit hwidth fun p => ?_
  split
  next hfield =>
    obtain ⟨i, rfl⟩ := Nat.exists_eq_add_of_le hfield.1
    have hi : i < n := Nat.add_lt_add_iff_left.mp hfield.2
    obtain ⟨hlt, hsel⟩ := select_fieldPlace_add bn hin hi
    have hrange := ((lt_and_select_lt_inRangeBits (bitOrder bn) hin).mpr hi).2
    have hbit := bufBit_encb_field e v s hn hrange
    rw [hbn, select_select_relative e _ hi] at hbit
    rw [testBit_bufInt, decide_eq_true hlt, Bool.true_and, hsel, hbit, Nat.add_sub_cancel_left, testBit_bitsInOrder,
      decide_eq_true hi, Bool.true_and, BitVec.testBit_toNat]
  next hout =>
    rw [testBit_bufInt, testBit_bufInt]
    by_cases hp : p < 8 * size
    · have hbit := bufBit_encb_outside e size v s (select_outside_fieldPlace bn hin hp hout)
      rw [← hbn] at hbit ⊢
      rw [hbit]
    · simp only [hp, decide_false, Bool.false_and]

/-- Settles O43: under LSB0 the numbering sees LE as itself and BE as reversed. -/
theorem closedFormsUnderLsb0 : Obligations.ClosedFormsUnderLsb0 := by
  rintro size off bit v n s hsize hn hin hbn f hf
  change f = lowBits n _ at hf
  rw [hf, revBits_lowBits, revBits_lowBits, ← bitsInOrder_le, ← bitsInOrder_le]
  exact ⟨⟨_, exec_of_bufferSize_le hsize, congrArg some (decbResult_eq_extract .le hbn hn hin)⟩,
    ⟨_, exec_of_bufferSize_le hsize, congrArg some (decbResult_eq_extract .be hbn hn hin)⟩,
    ⟨_, exec_of_bufferSize_le hsize, bufInt_encb_add .le v hbn hn hin⟩,
    _, exec_of_bufferSize_le hsize, bufInt_encb_add .be v hbn hn hin⟩

/-- Settles O44: under MSB0 the numbering sees BE as itself and LE as reversed. -/
theorem closedFormsUnderMsb0 : Obligations.ClosedFormsUnderMsb0 := by
  rintro size off bit v n s hsize hn hin hbn _ rfl g hg
  change g = lowBits n _ at hg
  rw [hg, revBits_lowBits, revBits_lowBits, ← bitsInOrder_le, ← bitsInOrder_le]
  exact ⟨⟨_, exec_of_bufferSize_le hsize, congrArg some (decbResult_eq_extract .be hbn hn hin)⟩,
    ⟨_, exec_of_bufferSize_le hsize, congrArg some (decbResult_eq_extract .le hbn hn hin)⟩,
    ⟨_, exec_of_bufferSize_le hsize, bufInt_encb_add .be v hbn hn hin⟩,
    _, exec_of_bufferSize_le hsize, bufInt_encb_add .le v hbn hn hin⟩

/-! ### The two paths at byte boundaries -/

/-- A span inside the buffer is a field inside it. -/
theorem startBit_zero_add_le {size off q : Nat} (h : off + q ≤ size) : startBit off 0 + 8 * q ≤ 8 * size := by
  rw [startBit_zero]
  omega

/-- 42_codec_laws R137 to R139: DECB of whole bytes gives the bits of DECA's result, inside each byte in the order in
which the numbering sees the command's. -/
theorem getLsbD_decbResult_of_bytes {bn : BitNum} (e : Endian) {size off q : Nat} {s : State}
    (hbn : s.cfg.bitNum = bn) (h : off + q ≤ size ∧ q ≤ 8) (j : Nat) :
    (decbResult e size off 0 (8 * q) s).getLsbD j =
      (decide (j < 8 * q) &&
        (decaResult e size off q s).getLsbD (8 * (j / 8) + select (relativeOrder (bitOrder bn) e) 8 (j % 8))) := by
  rw [getLsbD_decbResult_inside e s (Nat.mul_le_mul_left 8 h.2) (startBit_zero_add_le h.1), hbn]
  by_cases hj : j < 8 * q
  · have hk : j / 8 < q := Nat.div_lt_of_lt_mul hj
    have hl : j % 8 < 8 := Nat.mod_lt j (by decide)
    have hsel := select_bits_of_bytes e hk hl
    rw [Nat.div_add_mod] at hsel
    rw [getLsbD_decaResult e s h hk (select_lt hl), getLsbD_read bn _ _ (select_lt hl), ← select_select_relative _ e hl,
      select_select (select_lt hl), hsel, startBit_zero, Nat.mul_add, Nat.add_assoc]
  · simp only [hj, decide_false, Bool.false_and]

/-- 42_codec_laws R137 to R139: ENCB of whole bytes leaves in a byte of the span the bits that ENCA leaves, in the order
in which it sees the numbering. -/
theorem getLsbD_encb_of_bytes {bn : BitNum} (e : Endian) {size off q : Nat} (v : Value) {s : State}
    (hbn : s.cfg.bitNum = bn) (h : off + q ≤ size ∧ q ≤ 8) {i l : Nat} (hi : i < q) (hl : l < 8) :
    (Memory.read (completion (.encb e size off 0 v (8 * q)) s).buf (off + i)).getLsbD l =
      (Memory.read (completion (.enca e size off v q) s).buf (off + i)).getLsbD
        (select (relativeOrder e (bitOrder bn)) 8 l) := by
  have hsel := select_lt (e := bitOrder bn) hl
  have hrange : 8 * i + select (bitOrder bn) 8 l < inRangeBits size (startBit off 0) (8 * q) := by
    rw [inRangeBits_of_le (startBit_zero_add_le h.1)]
    omega
  have hbit := bufBit_encb_field e v s (Nat.mul_le_mul_left 8 h.2) hrange
  rw [hbn, select_bits_of_bytes e hi hsel, select_select_relative e _ hl, startBit_zero, ← Nat.add_assoc,
    ← Nat.mul_add] at hbit
  rw [getLsbD_read bn _ _ hl, hbit, getLsbD_enca_span e v s h hi (select_lt hl)]

/-- 42_codec_laws R133: the two encodes of the same bytes leave the same bytes outside the span. -/
theorem read_encb_eq_enca_outside (e : Endian) (size : Nat) {off q : Nat} (v : Value) (s : State) {a : Nat}
    (h : a < off ∨ off + q ≤ a) :
    Memory.read (completion (.encb e size off 0 v (8 * q)) s).buf a =
      Memory.read (completion (.enca e size off v q) s).buf a := by
  rw [read_encb_outside e size v s (by rw [startBit_zero]; omega), completion_enca_read, if_neg (by omega)]

/-- Settles O45: under the order of the numbering each byte's bits keep their places. -/
theorem pathsAgreeAtByteBoundaries : Obligations.PathsAgreeAtByteBoundaries := by
  intro e size off v q s hsize hq hspan he
  obtain rfl : e = bitOrder s.cfg.bitNum := he
  refine ⟨⟨_, _, exec_of_bufferSize_le hsize, exec_of_bufferSize_le hsize,
      congrArg some (BitVec.eq_of_getLsbD_eq fun j _ => ?_)⟩,
    _, _, exec_of_bufferSize_le hsize, exec_of_bufferSize_le hsize, fun a => ?_⟩
  · refine (getLsbD_decbResult_of_bytes _ rfl ⟨hspan, hq⟩ j).trans ?_
    rw [relativeOrder_self, select, Nat.div_add_mod]
    by_cases hj : j < 8 * q
    · rw [decide_eq_true hj, Bool.true_and]
      rfl
    · rw [decide_eq_false hj, Bool.false_and]
      exact (getLsbD_decaResult_above _ s ⟨hspan, hq⟩ (Nat.le_of_not_lt hj)).symm
  · by_cases ha : a < off ∨ off + q ≤ a
    · exact read_encb_eq_enca_outside _ size v s ha
    · obtain ⟨i, rfl⟩ := Nat.exists_eq_add_of_le (show off ≤ a by omega)
      refine BitVec.eq_of_getLsbD_eq fun l hl => ?_
      rw [getLsbD_encb_of_bytes _ v rfl ⟨hspan, hq⟩ (by omega) hl, relativeOrder_self, select]

/-- Settles O46: under the other order each byte's bits take each other's places. -/
theorem pathsDifferByBitReversal : Obligations.PathsDifferByBitReversal := by
  intro e size off v q s hsize hq hspan he
  have hrel : relativeOrder (bitOrder s.cfg.bitNum) e = .be ∧ relativeOrder e (bitOrder s.cfg.bitNum) = .be := by
    rw [he]
    cases s.cfg.bitNum <;> exact ⟨rfl, rfl⟩
  refine ⟨⟨_, _, _, exec_of_bufferSize_le hsize, exec_of_bufferSize_le hsize, completion_deca_result e size off q s,
      congrArg some (value_eq_ofNat fun j _ => ?_)⟩,
    _, _, exec_of_bufferSize_le hsize, exec_of_bufferSize_le hsize, fun a hfirst hlast =>
      Nat.eq_of_testBit_eq fun l => ?_⟩
  · rw [testBit_revBitsInBytes, BitVec.testBit_toNat]
    refine (getLsbD_decbResult_of_bytes e rfl ⟨hspan, hq⟩ j).trans ?_
    rw [hrel.1]
    rfl
  · obtain ⟨i, rfl⟩ := Nat.exists_eq_add_of_le hfirst
    rw [testBit_revBits, BitVec.testBit_toNat, BitVec.testBit_toNat]
    by_cases hl : l < 8
    · rw [getLsbD_encb_of_bytes e v rfl ⟨hspan, hq⟩ (Nat.add_lt_add_iff_left.mp hlast) hl, hrel.2, decide_eq_true hl,
        Bool.true_and]
      rfl
    · rw [BitVec.getLsbD_of_ge _ l (Nat.le_of_not_lt hl), decide_eq_false hl, Bool.false_and]

end Sys2Proof.Machine

/-! ## 60_exceptions: the boundary, the condition class and the codecs' own interfaces

Which moves of the host have a meaning, what a completed command shows of its class, and what an event leaves of the
codecs it is not about; then O12, O24, O25, O26, O52, O53 and O54 from these. -/

namespace Sys2Proof.Machine

/-! ### The moves that have a meaning -/

theorem exec_of_memLen_lt {i : Instr} {s : State} (h : s.cfg.memLen < i.bufferSize) :
    exec i s = .refused .bufferTooLarge :=
  bufferSizeGoverns.1 i s h

theorem moveAllowed_descriptor_of_ok {w : BitVec 160} {i : Instr} (h : decode w = .ok i) (cfg : Config) :
    moveAllowed cfg (.descriptor w) = decide (i.bufferSize ≤ cfg.memLen) := by
  simp [moveAllowed, h]

theorem moveAllowed_descriptor_of_error {w : BitVec 160} {why : DecodeError} (h : decode w = .error why)
    (cfg : Config) : moveAllowed cfg (.descriptor w) = false := by
  simp [moveAllowed, h]

/-- 10_state R19: a move that has a meaning is an admitted command, a write inside the buffer, or reset. -/
theorem hostMove_of_allowed {m : HostMove} {s : State} (h : moveAllowed s.cfg m = true) :
    ∃ t, hostMove m s = .next t := by
  cases m with
  | command p =>
    obtain ⟨hfit, hsize⟩ : portsFit s.cfg.offW p = true ∧ p.bufferSize ≤ s.cfg.memLen := by
      simpa [moveAllowed] using h
    exact ⟨_, (issuePorts_of_fit hfit).trans (exec_of_bufferSize_le (by simpa using hsize))⟩
  | descriptor w =>
    cases hdec : decode w with
    | ok i =>
      rw [moveAllowed_descriptor_of_ok hdec, decide_eq_true_eq] at h
      exact ⟨_, (issueDescriptor_of_ok hdec s).trans (exec_of_bufferSize_le h)⟩
    | error why =>
      rw [moveAllowed_descriptor_of_error hdec] at h
      cases h
  | writeByte a b => exact ⟨_, if_pos (of_decide_eq_true h)⟩
  | reset => exact ⟨_, rfl⟩

/-- 10_state R19, 20_memory R31, 30_encoding R68: the four reasons for which a move has no meaning. -/
theorem hostMove_of_not_allowed {m : HostMove} {s : State} (h : moveAllowed s.cfg m = false) :
    hostMove m s = .refused .bufferTooLarge ∨ (∃ why, hostMove m s = .refused (.invalidDescriptor why)) ∨
      hostMove m s = .refused .notPresentable ∨ hostMove m s = .refused .hostOutsideBuffer := by
  cases m with
  | command p =>
    cases hfit : portsFit s.cfg.offW p with
    | true =>
      have hsize : s.cfg.memLen < (decodePorts p).bufferSize := by simpa [moveAllowed, hfit] using h
      exact .inl ((issuePorts_of_fit hfit).trans (exec_of_memLen_lt hsize))
    | false => exact .inr (.inr (.inl (issuePorts_of_not_fit hfit)))
  | descriptor w =>
    cases hdec : decode w with
    | ok i =>
      rw [moveAllowed_descriptor_of_ok hdec, decide_eq_false_iff_not, Nat.not_le] at h
      exact .inl ((issueDescriptor_of_ok hdec s).trans (exec_of_memLen_lt h))
    | error why => exact .inr (.inl ⟨why, issueDescriptor_of_error hdec s⟩)
  | writeByte a b => exact .inr (.inr (.inr (if_neg (of_decide_eq_false h))))
  | reset => cases h

/-- Settles O12: a step without a move idles, and one with a move is that move, whose outcome `moveAllowed` decides. -/
theorem stepStopsOnlyAtTheBoundary : Obligations.StepStopsOnlyAtTheBoundary := by
  refine ⟨fun s hallowed => ?_, fun s m rest hhost hnot => ?_⟩
  · match hhost : s.host with
    | [] => exact ⟨s.begin [], by simp only [step, hhost]⟩
    | m :: rest =>
      rw [step_of_host_cons hhost]
      exact hostMove_of_allowed (s := s.begin rest) (hallowed m (by simp [hhost]))
  · rw [step_of_host_cons hhost]
    exact hostMove_of_not_allowed (s := s.begin rest) hnot

/-! ### The condition class -/

/-- Settles O24: a command completes with `condClass`, which is the table of R153. -/
theorem conditionClass : Obligations.ConditionClass := by
  intro i s hsize
  obtain ⟨_, hrsp, _⟩ := completion_delivers i s
  exact ⟨_, _, exec_of_bufferSize_le hsize, hrsp, by cases i <;> rfl⟩

/-- 60_exceptions R154: what the status port shows once a command has completed. -/
theorem completion_rspStatus (i : Instr) (s : State) :
    (completion i s).rspStatus = if s.cfg.hasStatus then some (statusCode (condClass i)) else none := by
  obtain ⟨_, hrsp, _⟩ := completion_delivers i s
  simp only [State.rspStatus, hrsp, completion_cfg]

theorem statusCode_ne_three (c : CondClass) : statusCode c ≠ 3#2 := by
  cases c <;> decide

/-- The same state on a block with or without the status port, and with another response before the command. -/
def State.withStatus (hasStatus : Bool) (rsp : Option Response) (s : State) : State :=
  { s with cfg := { s.cfg with hasStatus := hasStatus }, rsp := rsp }

theorem encbBit_withStatus (hasStatus : Bool) (rsp : Option Response) (e : Endian) (size start : Nat) (v : Value)
    (n i : Nat) (s : State) :
    (encbBit e size start v n i s).withStatus hasStatus rsp =
      encbBit e size start v n i (s.withStatus hasStatus rsp) := by
  by_cases h : byteIndex (start + i) < size
  · rw [encbBit_write h, encbBit_write h]; rfl
  · rw [encbBit_skip (Nat.le_of_not_lt h), encbBit_skip (Nat.le_of_not_lt h)]

/-- 60_exceptions R154: neither `HAS_STATUS` nor the response that stood before has a part in what a command does. -/
theorem completion_withStatus (hasStatus : Bool) (rsp : Option Response) (i : Instr) (s : State) :
    completion i (s.withStatus hasStatus rsp) = (completion i s).withStatus hasStatus (completion i s).rsp := by
  cases i with
  | enca e size off v n =>
    have hloop := ascend_map (n := n) (State.withStatus hasStatus rsp) (body := encaByte e off v n)
      (body' := encaByte e off v n) (fun _ _ => rfl) s
    simp only [completion, encaBytes, ← hloop]
    split <;> rfl
  | deca e size off n =>
    simp only [completion, decaBytes_eq]
    rfl
  | encb e size off bit v n =>
    have hloop := ascend_map (n := n) (State.withStatus hasStatus rsp)
      (encbBit_withStatus hasStatus rsp e size (startBit off bit) v n) s
    simp only [completion, encbBits, ← hloop]
    split <;> rfl
  | decb e size off bit n =>
    simp only [completion, decbBits_eq]
    rfl

theorem exec_withStatus {i : Instr} {s : State} (hsize : i.bufferSize ≤ s.cfg.memLen) (hasStatus : Bool)
    (rsp : Option Response) :
    exec i (s.withStatus hasStatus rsp) = .next ((completion i s).withStatus hasStatus (completion i s).rsp) := by
  rw [exec_of_bufferSize_le (s := s.withStatus hasStatus rsp) hsize, completion_withStatus]

/-- Settles O25: the port shows `statusCode` of the class when it exists, and the completion is the same under either
value of `HAS_STATUS` and after any response. -/
theorem statusOutputIsInformational : Obligations.StatusOutputIsInformational := by
  intro i s hsize
  obtain ⟨hvalid, _⟩ := completion_ports i s
  refine ⟨_, exec_of_bufferSize_le hsize, hvalid, fun hport => ?_, fun hport => ?_, fun hport => ?_, fun h => ?_,
    fun r => ?_⟩
  · rw [completion_rspStatus, if_pos hport]
    cases condClass i <;> rfl
  · rw [completion_rspStatus, if_pos hport]
    exact fun h => statusCode_ne_three _ (Option.some.inj h)
  · rw [completion_rspStatus, hport]
    rfl
  · exact exec_withStatus hsize h s.rsp
  · refine (exec_withStatus hsize s.cfg.hasStatus r).trans (congrArg _ ?_)
    rw [← completion_cfg i s]
    rfl

theorem widthFail_eq_true {n : Nat} : widthFail n = true ↔ 64 < n := by
  simp [widthFail]

/-- 60_exceptions R152, R155: the width test comes first in the class, and a failed one leaves the loop without a
turn. -/
theorem activeTurns_of_widthTooLarge {i : Instr} (h : condClass i = .widthTooLarge) : activeTurns i = 0 := by
  have aligned {size off n : Nat} (h : alignedClass size off n = .widthTooLarge) : spanFail size off n = true := by
    unfold alignedClass at h
    split_ifs at h with hwide
    exact spanFail_eq_true.mpr (.inr hwide)
  have bits {size start n : Nat} (h : bitClass size start n = .widthTooLarge) : widthFail n = true := by
    unfold bitClass at h
    split_ifs at h with hwide
    exact widthFail_eq_true.mpr hwide
  cases i with
  | enca | deca => exact if_pos (aligned h)
  | encb | decb => exact if_pos (bits h)

/-- Settles O26: a count above the limit has the class WIDTH_TOO_LARGE, and so no turn. -/
theorem oversizedWidthDoesNothing : Obligations.OversizedWidthDoesNothing := by
  intro i s hsize hwide
  have hclass : condClass i = .widthTooLarge := by cases i <;> exact if_pos hwide
  obtain ⟨hbuf, hbus, hrsp⟩ := completion_of_no_turns (activeTurns_of_widthTooLarge hclass) s
  exact ⟨_, exec_of_bufferSize_le hsize, hbuf, hbus, hclass ▸ hrsp⟩

/-! ### A turn of one codec among several -/

section turn

variable (y : Shared) (k : Nat)

@[simp] theorem Shared.advance_memLen : (y.advance k).memLen = y.memLen := by
  unfold Shared.advance
  split <;> rfl

/-- 60_exceptions R167: what a turn does to the buffer, from the codec and the buffer alone. -/
theorem Shared.advance_mem : (y.advance k).mem = (y.codecs[k]?).elim y.mem fun x => (x.advance y.mem).2 := by
  unfold Shared.advance
  split
  next hx => rw [hx]; rfl
  next hx => rw [hx]; rfl

/-- 60_exceptions R167: what a turn does to its codec, from the codec and the buffer alone. -/
theorem Shared.getElem?_advance_self :
    (y.advance k).codecs[k]? = (y.codecs[k]?).map fun x => (x.advance y.mem).1 := by
  unfold Shared.advance
  split
  next hx => rw [hx]; rfl
  next x hx => rw [hx]; exact Shared.getElem?_setCodec_self hx _

theorem Shared.getElem?_setCodec_ne (x : Codec) {j : Nat} (h : k ≠ j) : (y.setCodec k x).codecs[j]? = y.codecs[j]? :=
  List.getElem?_set_ne h

theorem Shared.getElem?_advance_ne {j : Nat} (h : k ≠ j) : (y.advance k).codecs[j]? = y.codecs[j]? := by
  unfold Shared.advance
  split
  · rfl
  · exact Shared.getElem?_setCodec_ne y k _ h

end turn

/-- Settles O54: an event replaces at most the codec it is about, and only a turn and a host write replace the
buffer; a turn is a function of its codec and the buffer. -/
theorem instancesShareOnlyTheBuffer : Obligations.InstancesShareOnlyTheBuffer := by
  refine ⟨fun y y' ev hev => ?_, fun y z k hmem hcodec => ?_⟩
  · rcases Shared.event_cases hev with
      rfl | ⟨k, rfl, rfl⟩ | ⟨a, b, rfl, _, rfl⟩ | ⟨k, x, htarget, _, _, ⟨i, _, rfl⟩ | ⟨_, rfl⟩⟩
    · exact ⟨rfl, fun _ _ => rfl, fun _ _ => rfl⟩
    · exact ⟨y.advance_memLen k, fun j hj => y.getElem?_advance_ne k (fun h => hj (congrArg some h)),
        fun hadvance _ => absurd rfl (hadvance k)⟩
    · exact ⟨rfl, fun _ _ => rfl, fun _ hwrite => absurd rfl (hwrite a b)⟩
    · exact ⟨rfl, fun j hj => y.getElem?_setCodec_ne k _ (fun h => hj (h ▸ htarget)), fun _ _ => rfl⟩
    · exact ⟨rfl, fun j hj => y.getElem?_setCodec_ne k _ (fun h => hj (h ▸ htarget)), fun _ _ => rfl⟩
  · simp only [Shared.advance_mem, Shared.getElem?_advance_self, hmem, hcodec, and_self]

/-! ### Launch and reset -/

/-- 60_exceptions R167: after launch every codec is one right after its reset. -/
theorem Shared.mem_codecs_launch {bytes : List Byte} {params : List BlockParams} {x : Codec} :
    x ∈ (Shared.launch bytes params).codecs ↔ ∃ p ∈ params, Codec.reset p = x :=
  List.mem_map

theorem Shared.launch_inv (bytes : List Byte) (params : List BlockParams) : (Shared.launch bytes params).Inv := by
  refine ⟨Memory.wf_ofBytes bytes, Memory.below_ofBytes bytes, fun x hx => ?_⟩
  obtain ⟨p, _, rfl⟩ := Shared.mem_codecs_launch.mp hx
  exact ⟨nofun, nofun⟩

section reset

variable {y : Shared} {k : Nat} {x : Codec}

theorem Shared.event_reset_of_ready (hx : y.codecs[k]? = some x) (h : x.cmdReady = true) :
    y.event (.reset k) = .next (y.setCodec k { x with rsp := none }) := by
  simp [Shared.event, hx, Shared.resetCodec, h]

/-- 70_reset R176: the host does not reset a codec during its command. -/
theorem Shared.event_reset_of_busy (hx : y.codecs[k]? = some x) (h : x.cmdReady = false) :
    y.event (.reset k) = .refused .resetDuringCommand := by
  simp [Shared.event, hx, Shared.resetCodec, h]

end reset

/-- Settles O52: launch makes every codec one after its reset, and a reset drops the response of a ready one. -/
theorem instancesAreReadyAfterReset : Obligations.InstancesAreReadyAfterReset := by
  refine ⟨fun bytes params =>
    ⟨List.all_eq_true.mpr fun x hx => ?_, fun x hx => ?_, Shared.launch_inv bytes params⟩,
    fun y k x hx => ⟨fun hready => ?_, Shared.event_reset_of_busy hx⟩⟩
  · obtain ⟨p, _, rfl⟩ := Shared.mem_codecs_launch.mp hx
    rfl
  · obtain ⟨p, _, rfl⟩ := Shared.mem_codecs_launch.mp hx
    rfl
  · exact ⟨_, _, Shared.event_reset_of_ready hx hready, rfl, Shared.getElem?_setCodec_self hx _, hready, rfl, rfl⟩

/-! ### The response of a codec -/

/-- Settles O53: the turn that makes the last access completes the command with `InFlight.response`, whose class is
that of the operands sampled at issue; any other turn goes on. -/
theorem instanceRespondsOnCompletion : Obligations.InstanceRespondsOnCompletion := by
  intro y k x f g m hx hcommand haccess
  obtain rfl : g = (f.access x.params.bitNum y.mem).1 := by rw [haccess]
  obtain rfl : m = (f.access x.params.bitNum y.mem).2 := by rw [haccess]
  refine ⟨(x.advance y.mem).1, by simp [Shared.getElem?_advance_self, hx], ?_⟩
  rw [Shared.advance_mem, hx, Option.elim_some, ← InFlight.access_cmd x.params.bitNum f y.mem]
  cases hdone : (f.access x.params.bitNum y.mem).1.done with
  | true =>
    rw [Codec.advance_last hcommand hdone]
    exact ⟨rfl, rfl, fun _ => ⟨rfl, rfl, rfl, rfl, rfl⟩, nofun⟩
  | false =>
    rw [Codec.advance_not_last hcommand hdone]
    exact ⟨rfl, rfl, nofun, fun _ => ⟨rfl, rfl, rfl, rfl⟩⟩

end Sys2Proof.Machine

/-! ## 70_reset_and_hazards: reset, the host's other moves and a run of moves

How a step idles, what each of the host's moves but a command does to a begun step, and a run as a chain of steps; then
O8, O9 and O13 from these. -/

namespace Sys2Proof.Machine

/-! ### The moves that are no command -/

/-- 70_reset R188: with no move the step only begins. -/
theorem step_of_host_nil {s : State} (h : s.host = []) : step s = .next (s.begin s.host) := by
  simp only [step, h]

theorem hostWrite_of_lt {a : Nat} {s : State} (h : a < s.cfg.memLen) (b : Byte) :
    hostWrite a b s = .next { s with buf := Memory.write s.buf a b } :=
  if_pos h

theorem hostWrite_of_memLen_le {a : Nat} {s : State} (h : s.cfg.memLen ≤ a) (b : Byte) :
    hostWrite a b s = .refused .hostOutsideBuffer :=
  if_neg (Nat.not_lt.mpr h)

/-- Settles O8: reset and no move leave the step as it began, and a host write is one write of the memory. -/
theorem stepMakesTheHostsOtherMoves : Obligations.StepMakesTheHostsOtherMoves := by
  refine ⟨fun s rest hhost => step_of_host_cons hhost, fun s a b rest hhost => ⟨fun ha => ?_, fun ha => ?_⟩,
    fun s hhost => step_of_host_nil hhost⟩
  · exact ⟨Memory.write s.buf a b, Memory.read_write s.buf a b,
      (step_of_host_cons hhost).trans (hostWrite_of_lt (s := s.begin rest) ha b)⟩
  · exact (step_of_host_cons hhost).trans (hostWrite_of_memLen_le (s := s.begin rest) ha b)

/-! ### Reset -/

/-- 10_state R10, R22: the reset state has an empty memory, no accesses and no response, and offset ports of 32 bits. -/
theorem State.reset_inv : State.reset.Inv :=
  ⟨by decide, State.reset_buf_wf, rfl, nofun, nofun⟩

/-- Settles O9: the reset state has no response and no accesses, and it meets the invariant. -/
theorem resetIsIdleAndMeetsTheInvariant : Obligations.ResetIsIdleAndMeetsTheInvariant :=
  ⟨rfl, rfl, rfl, State.reset_inv⟩

/-! ### A run of the host's moves -/

theorem run_succ_of_next {s t : State} (h : step s = .next t) (k : Nat) :
    Host.Core.run Sys2Proof.core (k + 1) s = Host.Core.run Sys2Proof.core k t := by
  have hcore : Sys2Proof.core.step s = .next t := h
  simp only [Host.Core.run, hcore]

/-- 70_reset R187: a move that has a meaning takes one step, which keeps the parameters and the moves after it. -/
theorem exists_step_of_allowed {s : State} {m : HostMove} {rest : List HostMove} (hhost : s.host = m :: rest)
    (hallowed : moveAllowed s.cfg m = true) : ∃ t, step s = .next t ∧ t.cfg = s.cfg ∧ t.host = rest := by
  obtain ⟨t, hstep⟩ := stepStopsOnlyAtTheBoundary.1 s (by simpa [hhost] using hallowed)
  obtain ⟨hcfg, htail, _⟩ := stepKeepsParametersAndTakesOneMove s t hstep
  exact ⟨t, hstep, hcfg, by rw [htail, hhost, List.tail_cons]⟩

/-- Settles O13, by induction on the host's moves: each step takes one, and the parameters, which decide whether the
others have a meaning, stay. -/
theorem runOfTheHostsMovesEnds : Obligations.RunOfTheHostsMovesEnds := by
  intro s hallowed
  induction hhost : s.host generalizing s with
  | nil => exact ⟨s, rfl, hhost, rfl⟩
  | cons m rest ih =>
    obtain ⟨hm, hrest⟩ := List.forall_mem_cons.mp (hhost ▸ hallowed)
    obtain ⟨t, hstep, hcfg, hleft⟩ := exists_step_of_allowed hhost hm
    obtain ⟨u, hrun, hdone, hparams⟩ := ih t (by rwa [hleft, hcfg]) hleft
    exact ⟨u, (run_succ_of_next hstep rest.length).trans hrun, hdone, hparams.trans hcfg⟩

end Sys2Proof.Machine
